-- ==== Sys2Proof/Word.lean ====
section
/-! DEFINITION. The two word types of the engine: the 32-bit word of the datapath and the byte
(spec/00_scope.md R6, R9). Addition of two words is `BitVec` addition, which is the wraparound
addition `add32` of R10. -/

namespace Sys2Proof

/-- A word of H, V, W and of all datapath arithmetic: 32 bits (R6 `WORD`). -/
abbrev Word := BitVec 32

/-- A byte: the unit of BUF, DIGEST, HEX and of a response (20_memory.md R50, 30_encoding.md R85). -/
abbrev Byte := BitVec 8

end Sys2Proof
end

