-- ==== Sys2Proof/Config.lean ====
section
/-! DEFINITION. What the spec leaves to the implementation: the one parameter `HAS_HEX`, and the free
values, opaque constants that stand for the bits of a location that holds no value. Nothing in Lean
can evaluate a free value or prove a value of it. -/

namespace Sys2Proof

/-- `HAS_HEX` (00_scope.md R6, 30_encoding.md R79, decision D11): the hex helper is present in this
spec. The decoder takes it as an argument, so the other choice can be stated too. DESIGN CHOICE of the
spec; log 9. -/
def Config.hasHex : Bool := true

/-- What H holds while it is `undef` (10_state.md R35), for the given draw. Free value; log 2. -/
opaque Config.undefH : Nat → Vector Word 8

/-- What V holds while it is `undef` (R35). Free value; log 2. -/
opaque Config.undefV : Nat → Vector Word 8

/-- What W holds while it is `undef` (R35). Free value; log 2. -/
opaque Config.undefW : Nat → Vector Word 64

/-- What BUF holds while it is `undef` (R35). Free value; log 2. -/
opaque Config.undefBuf : Nat → Vector Byte 64

/-- What N holds while it is `undef` (R35): any 6 bits. Free value; log 2. -/
opaque Config.undefN : Nat → BitVec 6

/-- What LEN holds while it is `undef` (R35): any 61 bits. Free value; log 2. -/
opaque Config.undefLen : Nat → BitVec 61

/-- What DIGEST holds while it is `undef` (R30, R35). Free value; log 2. -/
opaque Config.undefDigest : Nat → Vector Byte 32

/-- What LEN holds after a PUSH issued at LEN = 2^61 - 1, which the sequencer never issues
(41_padding.md R110; 10_state.md R29 says LEN never wraps). Free value; log 10. -/
opaque Config.lenPastMax : Nat → BitVec 61

end Sys2Proof
end

