-- ==== Sys2Proof/Syntax.lean ====
section
/-! DEFINITION. The instruction set as syntax: one constructor per row of spec/opcode_table.json, the
six host commands and the engine's twelve micro-operations. Nothing here says what they mean. -/

namespace Sys2Proof

/-- The six commands (40_commands.md) and the twelve micro-operations (30_encoding.md R83). -/
inductive Instr where
  /-- `START` (R92): begin a call. -/
  | start
  /-- `DATA imm8` (R93): append one message byte. -/
  | data (imm8 : BitVec 8)
  /-- `FINISH` (R94): pad, process what remains, latch the digest. -/
  | finish
  /-- `RDDG idx5` (R95): read one digest byte. -/
  | rddg (idx5 : BitVec 5)
  /-- `RDHX idx6` (R96): read one hex character of the digest. -/
  | rdhx (idx6 : BitVec 6)
  /-- `STAT` (R99): read STATUS. -/
  | stat
  /-- `INIT` (R160): set the hash state to the initialisation constants. -/
  | init
  /-- `PUSH` (R110): take the message byte of the DATA command on the port. -/
  | push
  /-- `PADM` (R114): append the marker byte. -/
  | padm
  /-- `PADZ` (R115): append a zero byte. -/
  | padz
  /-- `PADL i` (R116): append byte i of the bit length. -/
  | padl (i : BitVec 3)
  /-- `LDW t`, t = 0 to 15 (R127): load one block word into the schedule. -/
  | ldw (t : BitVec 4)
  /-- `EXP t`, t = 16 to 63 (R128): derive one schedule word. -/
  | exp (t : BitVec 6)
  /-- `LDV` (R144): load the working registers. -/
  | ldv
  /-- `RND t`, t = 0 to 63 (R145): one compression round. -/
  | rnd (t : BitVec 6)
  /-- `ACC` (R161): accumulate a block's result into the hash state. -/
  | acc
  /-- `SER` (R162): serialise the hash state into the digest. -/
  | ser
  /-- `DISCARD` (R163): drop the internal state. -/
  | discard
  deriving DecidableEq, Repr

/-- An instruction word: 16 bits on the command port (30_encoding.md R70), or a 10-bit control word that
the sequencer issues to the datapath and no host can supply (R83). -/
inductive InstrWord where
  | command (c : BitVec 16)
  | control (u : BitVec 10)
  deriving DecidableEq, Repr

end Sys2Proof
end

