-- ==== Sys2Proof/WellFormed.lean ====
section
/-! DEFINITION. Which instructions of the syntax the spec has: every one but `EXP t` with t below 16
(30_encoding.md R83, R84) and, on a machine without the hex helper, `RDHX` (R79). All other operand
ranges are the widths of the operands' types. -/

namespace Sys2Proof

/-- The check, for a machine whose `HAS_HEX` is the given value. -/
def Instr.wellFormedWith (hasHex : Bool) : Instr → Bool
  | .exp t => decide (16 ≤ t.toNat)
  | .rdhx _ => hasHex
  | .start | .data _ | .finish | .rddg _ | .stat => true
  | .init | .push | .padm | .padz | .padl _ | .ldw _ | .ldv | .rnd _ | .acc | .ser | .discard => true

/-- An instruction of this machine (`HAS_HEX` as in Config). -/
abbrev Instr.WellFormed (i : Instr) : Prop := i.wellFormedWith Config.hasHex = true

end Sys2Proof
end

