-- ==== Sys2Proof/Decode.lean ====
section
/-! DEFINITION. The decoder and the encoder of spec/30_encoding.md: 16-bit command words (R70 to R76) and
10-bit control words (R83, R84). Both decoders are total and refuse by name; the encoder follows it. -/

namespace Sys2Proof

/-- Why a word is no instruction. The first six are the classes of illegal command words of R76, the
last two the control words outside the table of R83 (R84). -/
inductive DecodeError where
  /-- R76 (a): `rsv` is not zero. -/
  | reservedBits
  /-- R76 (b): `op` is 0x0 or 0x7 to 0xF. -/
  | reservedOpcode
  /-- R76 (c): START, FINISH or STAT with a non-zero `arg`. -/
  | operandNotZero
  /-- R76 (d): RDDG with an index above 31. -/
  | digestIndex
  /-- R76 (e): RDHX with an index above 63. -/
  | hexIndex
  /-- R76 (f): `op` is 0x5 on a machine without the hex helper. -/
  | noHexHelper
  /-- R84: an unused `ucode`. -/
  | unusedUcode
  /-- R84: a `uidx` outside the micro-operation's range. -/
  | controlIndex
  deriving DecidableEq, Repr

/-- Bits 15:12 of a command word (R70). -/
def cmdOp (c : BitVec 16) : BitVec 4 := c.extractLsb' 12 4

/-- Bits 11:8 of a command word (R70). -/
def cmdRsv (c : BitVec 16) : BitVec 4 := c.extractLsb' 8 4

/-- Bits 7:0 of a command word: the operand field (R70), whole the `imm8` of DATA (R73). -/
def cmdArg (c : BitVec 16) : BitVec 8 := c.extractLsb' 0 8

/-- The operand field of the sub-form C0 (R71): all of it zero. -/
def decodeNoOperand (i : Instr) (arg : BitVec 8) : Except DecodeError Instr :=
  if arg = 0x00#8 then .ok i else .error .operandNotZero

/-- The command decoder, R75, on a machine whose `HAS_HEX` is the given value. -/
def decodeCommandWith (hasHex : Bool) (c : BitVec 16) : Except DecodeError Instr :=
  if cmdRsv c ≠ 0x0#4 then .error .reservedBits
  else if cmdOp c = 0x1#4 then decodeNoOperand .start (cmdArg c)
  else if cmdOp c = 0x2#4 then .ok (.data (cmdArg c))
  else if cmdOp c = 0x3#4 then decodeNoOperand .finish (cmdArg c)
  else if cmdOp c = 0x4#4 then
    if (cmdArg c).extractLsb' 5 3 = 0b000#3 then .ok (.rddg ((cmdArg c).extractLsb' 0 5))
    else .error .digestIndex
  else if cmdOp c = 0x5#4 then
    if hasHex = false then .error .noHexHelper
    else if (cmdArg c).extractLsb' 6 2 = 0b00#2 then .ok (.rdhx ((cmdArg c).extractLsb' 0 6))
    else .error .hexIndex
  else if cmdOp c = 0x6#4 then decodeNoOperand .stat (cmdArg c)
  else .error .reservedOpcode

/-- The command decoder of this machine. -/
def decodeCommand (c : BitVec 16) : Except DecodeError Instr := decodeCommandWith Config.hasHex c

/-- Bits 9:6 of a control word (R83). -/
def ctlUcode (u : BitVec 10) : BitVec 4 := u.extractLsb' 6 4

/-- Bits 5:0 of a control word (R83). -/
def ctlUidx (u : BitVec 10) : BitVec 6 := u.extractLsb' 0 6

/-- The `uidx` of a micro-operation without an index: zero (R83). -/
def decodeNoIndex (i : Instr) (uidx : BitVec 6) : Except DecodeError Instr :=
  if uidx = 0#6 then .ok i else .error .controlIndex

/-- The control-word decoder: the table of R83, everything else refused (R84). -/
def decodeControl (u : BitVec 10) : Except DecodeError Instr :=
  if ctlUcode u = 0x1#4 then decodeNoIndex .init (ctlUidx u)
  else if ctlUcode u = 0x2#4 then decodeNoIndex .push (ctlUidx u)
  else if ctlUcode u = 0x3#4 then decodeNoIndex .padm (ctlUidx u)
  else if ctlUcode u = 0x4#4 then decodeNoIndex .padz (ctlUidx u)
  else if ctlUcode u = 0x5#4 then
    if (ctlUidx u).extractLsb' 3 3 = 0#3 then .ok (.padl ((ctlUidx u).extractLsb' 0 3))
    else .error .controlIndex
  else if ctlUcode u = 0x6#4 then
    if (ctlUidx u).extractLsb' 4 2 = 0#2 then .ok (.ldw ((ctlUidx u).extractLsb' 0 4))
    else .error .controlIndex
  else if ctlUcode u = 0x7#4 then
    if 16 ≤ (ctlUidx u).toNat then .ok (.exp (ctlUidx u)) else .error .controlIndex
  else if ctlUcode u = 0x8#4 then decodeNoIndex .ldv (ctlUidx u)
  else if ctlUcode u = 0x9#4 then .ok (.rnd (ctlUidx u))
  else if ctlUcode u = 0xA#4 then decodeNoIndex .acc (ctlUidx u)
  else if ctlUcode u = 0xB#4 then decodeNoIndex .ser (ctlUidx u)
  else if ctlUcode u = 0xC#4 then decodeNoIndex .discard (ctlUidx u)
  else .error .unusedUcode

/-- Decoding a word of either kind; no state plays a part (R75). -/
def decode : InstrWord → Except DecodeError Instr
  | .command c => decodeCommand c
  | .control u => decodeControl u

/-- A command word from its opcode and operand field, `rsv` zero (R70). -/
def commandWord (op : BitVec 4) (arg : BitVec 8) : BitVec 16 := op ++ 0x0#4 ++ arg

/-- A control word from its two fields (R83). -/
def controlWord (ucode : BitVec 4) (uidx : BitVec 6) : BitVec 10 := ucode ++ uidx

/-- The word of an instruction (R72, R73, R83). -/
def encode : Instr → InstrWord
  | .start => .command (commandWord 0x1#4 0x00#8)
  | .data b => .command (commandWord 0x2#4 b)
  | .finish => .command (commandWord 0x3#4 0x00#8)
  | .rddg i => .command (commandWord 0x4#4 (0b000#3 ++ i))
  | .rdhx j => .command (commandWord 0x5#4 (0b00#2 ++ j))
  | .stat => .command (commandWord 0x6#4 0x00#8)
  | .init => .control (controlWord 0x1#4 0#6)
  | .push => .control (controlWord 0x2#4 0#6)
  | .padm => .control (controlWord 0x3#4 0#6)
  | .padz => .control (controlWord 0x4#4 0#6)
  | .padl i => .control (controlWord 0x5#4 (0#3 ++ i))
  | .ldw t => .control (controlWord 0x6#4 (0#2 ++ t))
  | .exp t => .control (controlWord 0x7#4 t)
  | .ldv => .control (controlWord 0x8#4 0#6)
  | .rnd t => .control (controlWord 0x9#4 t)
  | .acc => .control (controlWord 0xA#4 0#6)
  | .ser => .control (controlWord 0xB#4 0#6)
  | .discard => .control (controlWord 0xC#4 0#6)

/-- The number an opcode-table row gives the word, with the kind of word forgotten. -/
def InstrWord.number : InstrWord → Nat
  | .command c => c.toNat
  | .control u => u.toNat

/-- `match` of an instruction's row of spec/opcode_table.json (R74, R83). -/
def Instr.tableMatch : Instr → Nat
  | .start => 0x1000 | .data _ => 0x2000 | .finish => 0x3000
  | .rddg _ => 0x4000 | .rdhx _ => 0x5000 | .stat => 0x6000
  | .init => 0x040 | .push => 0x080 | .padm => 0x0C0 | .padz => 0x100
  | .padl _ => 0x140 | .ldw _ => 0x180 | .exp _ => 0x1C0 | .ldv => 0x200
  | .rnd _ => 0x240 | .acc => 0x280 | .ser => 0x2C0 | .discard => 0x300

/-- `mask` of an instruction's row of spec/opcode_table.json (R74, R83). -/
def Instr.tableMask : Instr → Nat
  | .start => 0xFFFF | .data _ => 0xFF00 | .finish => 0xFFFF
  | .rddg _ => 0xFFE0 | .rdhx _ => 0xFFC0 | .stat => 0xFFFF
  | .init => 0x3FF | .push => 0x3FF | .padm => 0x3FF | .padz => 0x3FF
  | .padl _ => 0x3F8 | .ldw _ => 0x3F0 | .exp _ => 0x3C0 | .ldv => 0x3FF
  | .rnd _ => 0x3C0 | .acc => 0x3FF | .ser => 0x3FF | .discard => 0x3FF

/-- Whether a decoder's answer is an instruction. -/
def isInstr : Except DecodeError Instr → Bool
  | .ok _ => true
  | .error _ => false

/-- Which kind of word a number of the opcode table is. A row of 10 bits is given in whole bytes, so its
number reaches here with 16 bits; the two kinds never meet, since every control word is below 0x400 and
every command word is 0x1000 or more. A number that is neither is a command word. Log 16. -/
def tableWord (w : Nat) : InstrWord :=
  if w < 1024 ∧ isInstr (decodeControl (BitVec.ofNat 10 w)) = true then .control (BitVec.ofNat 10 w)
  else .command (BitVec.ofNat 16 w)

/-- The instruction this decoder reads from a word of the opcode table: none where it refuses, and none
where the number has a bit outside the given bits or outside the 16 bits of the longest word. -/
def decodeTableWord (nbits w : Nat) : Option Instr :=
  if w < 2 ^ nbits ∧ w < 65536 then
    match decode (tableWord w) with
    | .ok i => some i
    | .error _ => none
  else none

end Sys2Proof
end

