-- ==== Sys2Proof/Machine/State.lean ====
section
/-! DEFINITION. The state of the engine (spec/10_state.md R20), the events that drive it, its reset
value (R37) and the reasons a step can stop. Plain data throughout. -/

namespace Sys2Proof.Machine

/-- `PHASE` (10_state.md R21); its 2-bit codes are `Phase.code`. -/
inductive Phase where
  /-- 0: no call in progress, no digest held. -/
  | idle
  /-- 1: a call is in progress and message bytes are being taken. -/
  | absorb
  /-- 2: the last call finished and DIGEST holds its result. -/
  | done
  /-- 3: the engine has faulted and stays so until reset. -/
  | fault
  deriving DecidableEq, Repr

/-- `CAUSE` (10_state.md R22, 60_exceptions.md R176); its 3-bit codes are `Cause.code`. -/
inductive Cause where
  /-- 0: no fault. -/
  | none
  /-- 1: the command word is not one of the legal words. -/
  | illegalCmd
  /-- 2: a legal command in a phase where it is not legal. -/
  | sequence
  /-- 3: the message would exceed 2^61 - 1 bytes. -/
  | length
  deriving DecidableEq, Repr

/-- What can happen next to the engine. A host presents commands and asserts reset (00_scope.md R8); a
control word comes from the engine's own sequencer and from no host (30_encoding.md R83). Log 5. -/
inductive Event where
  /-- The host presents a command word. -/
  | command (c : BitVec 16)
  /-- The host asserts reset (70_reset_and_hazards.md R200). -/
  | reset
  /-- The sequencer issues a control word to the datapath (R83), to follow a micro-operation trace. -/
  | control (u : BitVec 10)
  deriving DecidableEq, Repr

/-- The engine, with the two ends of its port. -/
structure State where
  /-- `PHASE` (R21). -/
  phase : Phase
  /-- `CAUSE` (R22). -/
  cause : Cause
  /-- `H[0..7]`, the running hash state (R24). -/
  h : Vector Word 8
  /-- `V[0..7]` = a..h, the working registers (R25). -/
  v : Vector Word 8
  /-- `W[0..63]`, the message schedule (R26). -/
  w : Vector Word 64
  /-- `BUF[0..63]`, the block buffer (R27). -/
  buf : Vector Byte 64
  /-- `N`, the fill index (R28). -/
  n : BitVec 6
  /-- `LEN`, message bytes taken (R29). -/
  len : BitVec 61
  /-- `DIGEST[0..31]` (R30). -/
  digest : Vector Byte 32
  /-- The command word standing on the port while it executes; PUSH takes its byte from it
  (30_encoding.md R83). The model's own field; log 7. -/
  cmdPort : BitVec 16
  /-- The response bytes given so far, oldest first (00_scope.md R8). The model's own field; log 8. -/
  responses : List Byte
  /-- What happens next, oldest first. The model's own field; log 5. -/
  events : List Event
  /-- How many free values have been drawn. The model's own field, and no statement rests on it; log 3. -/
  fresh : Nat
  deriving DecidableEq, Repr

/-- A step of this machine never ends in a fault: the engine's three faults (60_exceptions.md R175) are
taken, and the step that takes one answers a next state with PHASE = FAULT. So the type is empty. Log 27. -/
inductive Fault where
  deriving DecidableEq, Repr

/-- Why a step has no meaning to give. -/
inductive Refusal where
  /-- Raised by an arm of `exec` whose instruction has no meaning yet. Safe: nothing is claimed of it. -/
  | notModelled (mnemonic : String)
  /-- Raised by a step on a control word outside the table, and by EXP with an index below 16: 30_encoding.md
  R84 says such a word is never issued, that its effect is not defined, and that a model should refuse it.
  Safe: nothing is claimed of it. Log 11. -/
  | controlWordOutsideTable (u : BitVec 10)
  deriving DecidableEq, Repr

/-- The state right after reset (10_state.md R37, 70_reset_and_hazards.md R200): IDLE and NONE. The spec
leaves every datapath location `undef`; here each holds 0, DESIGN CHOICE, unsafe, log 1. The port is
empty: no event pending, no response given (logs 5, 7, 8), no free value drawn (log 3). -/
def State.reset : State where
  phase := .idle
  cause := .none
  h := Vector.replicate 8 0
  v := Vector.replicate 8 0
  w := Vector.replicate 64 0
  buf := Vector.replicate 64 0
  n := 0
  len := 0
  digest := Vector.replicate 32 0
  cmdPort := 0
  responses := []
  events := []
  fresh := 0

end Sys2Proof.Machine
end

