-- ==== Sys2Proof/Machine/Flags.lean ====
section
/-! DEFINITION. The engine's only flags: the codes of PHASE and CAUSE and the STATUS view of them
(spec/10_state.md R21, R22, R31). No arithmetic operation sets a flag. -/

namespace Sys2Proof.Machine

/-- The 2-bit code of a phase (R21). -/
def Phase.code : Phase → BitVec 2
  | .idle => 0
  | .absorb => 1
  | .done => 2
  | .fault => 3

/-- The 3-bit code of a cause (R22, 60_exceptions.md R176). -/
def Cause.code : Cause → BitVec 3
  | .none => 0
  | .illegalCmd => 1
  | .sequence => 2
  | .length => 3

/-- `STATUS` = `{000, CAUSE[2:0], PHASE[1:0]}` (R31), a view and no storage. -/
def status (s : State) : Byte := 0b000#3 ++ s.cause.code ++ s.phase.code

end Sys2Proof.Machine
end

