-- ==== Sys2Proof/Machine/Operands.lean ====
section
/-! DEFINITION. How operations reach the arrays: by an index whose width is the array's (spec/20_memory.md
R50, R53), big-endian between bytes and words (R51, 00_scope.md R11), and the hex view of DIGEST
(44_accumulate_output.md R168, R169). -/

namespace Sys2Proof.Machine

/-- `W[t]` of a schedule. -/
def wordAt (w : Vector Word 64) (t : BitVec 6) : Word := w[t.toNat]'(by have := t.isLt; omega)

/-- `W[t] <- x`. -/
def setWord (w : Vector Word 64) (t : BitVec 6) (x : Word) : Vector Word 64 :=
  w.set t.toNat x (by have := t.isLt; omega)

/-- `BUF[i]` of a block buffer. -/
def byteAt (buf : Vector Byte 64) (i : BitVec 6) : Byte := buf[i.toNat]'(by have := i.isLt; omega)

/-- `BUF[i] <- b`. -/
def setByte (buf : Vector Byte 64) (i : BitVec 6) (b : Byte) : Vector Byte 64 :=
  buf.set i.toNat b (by have := i.isLt; omega)

/-- `DIGEST[i]`. -/
def digestAt (digest : Vector Byte 32) (i : BitVec 5) : Byte :=
  digest[i.toNat]'(by have := i.isLt; omega)

/-- `MemRead(BUF, 4t, 4)` (00_scope.md R11, 20_memory.md R51(a)): the byte at the lower index is the more
significant. The index `{t, k}` is `4t + k`. -/
def blockWord (buf : Vector Byte 64) (t : BitVec 4) : Word :=
  byteAt buf (t ++ 0#2) ++ byteAt buf (t ++ 1#2) ++ byteAt buf (t ++ 2#2) ++ byteAt buf (t ++ 3#2)

/-- Byte `j` of a word, counting from the most significant: bits `31 - 8j` to `24 - 8j` (R11, R51(c)). -/
def wordByte (x : Word) (j : Nat) : Byte := x.extractLsb' (24 - 8 * j) 8

/-- The 32 bytes of eight words, each word big-endian and word 0 first (R51(c), 44 R162). -/
@[irreducible] def wordsToBytes (h : Vector Word 8) : Vector Byte 32 :=
  Vector.ofFn fun j : Fin 32 => wordByte (h[j.val / 4]'(by omega)) (j.val % 4)

/-- `L64` = `{LEN[60:0], 000}`: the message length in bits (41_padding.md R116, 10_state.md R29). -/
def bitLength (len : BitVec 61) : BitVec 64 := len ++ 0b000#3

/-- Byte `i` of the 64-bit big-endian bit length: bits `63 - 8i` to `56 - 8i` (R116, 20_memory.md R51(b)). -/
def lengthByte (len : BitVec 61) (i : BitVec 3) : Byte :=
  (bitLength len).extractLsb' (56 - 8 * i.toNat) 8

/-- The ASCII code of a lowercase hexadecimal digit (44 R169). -/
def hexdigit (x : BitVec 4) : Byte :=
  if x < 10#4 then 0x30#8 + x.setWidth 8 else 0x57#8 + x.setWidth 8

/-- `HEX[j]` (44 R168): the high nibble of `DIGEST[j >> 1]` for even `j`, the low nibble for odd `j`. -/
def hexView (digest : Vector Byte 32) (j : BitVec 6) : Byte :=
  if j.extractLsb' 0 1 = 0#1 then hexdigit ((digestAt digest (j.extractLsb' 1 5)).extractLsb' 4 4)
  else hexdigit ((digestAt digest (j.extractLsb' 1 5)).extractLsb' 0 4)

end Sys2Proof.Machine
end

