-- ==== Sys2Proof/Machine/Functions.lean ====
section
/-! DEFINITION. The datapath's functions on 32-bit words: rotr and shr (spec/00_scope.md R10), the small
sigmas (42_schedule.md R126), the capital sigmas (43_compression.md R141), Ch and Maj (R142), the
schedule recurrence (R128) and one round (R145). The spec marks them as from general knowledge; log 14. -/

namespace Sys2Proof.Machine

/-- `shr(x, n)`: zeros enter at the left (R10). -/
def shr (x : Word) (n : Nat) : Word := x >>> n

/-- `rotr(x, n)`, 0 < n < 32 (R10). -/
def rotr (x : Word) (n : Nat) : Word := (x >>> n) ||| (x <<< (32 - n))

/-- σ0 (R126). -/
def smallSigma0 (x : Word) : Word := rotr x 7 ^^^ rotr x 18 ^^^ shr x 3

/-- σ1 (R126). -/
def smallSigma1 (x : Word) : Word := rotr x 17 ^^^ rotr x 19 ^^^ shr x 10

/-- Σ0 (R141). -/
def bigSigma0 (x : Word) : Word := rotr x 2 ^^^ rotr x 13 ^^^ rotr x 22

/-- Σ1 (R141). -/
def bigSigma1 (x : Word) : Word := rotr x 6 ^^^ rotr x 11 ^^^ rotr x 25

/-- Ch, the choice function (R142). -/
def ch (x y z : Word) : Word := (x &&& y) ^^^ (~~~x &&& z)

/-- Maj, the majority function (R142). -/
def maj (x y z : Word) : Word := (x &&& y) ^^^ (x &&& z) ^^^ (y &&& z)

/-- The right-hand side of `EXP t` (R128), on a schedule. Indices are 6-bit, and do not wrap for t from 16. -/
def expandWord (w : Vector Word 64) (t : BitVec 6) : Word :=
  (smallSigma1 (wordAt w (t - 2#6)) + wordAt w (t - 7#6))
    + (smallSigma0 (wordAt w (t - 15#6)) + wordAt w (t - 16#6))

/-- `T1` of a round (R145), from the working registers, the round constant and the schedule word. -/
def roundT1 (v : Vector Word 8) (kt wt : Word) : Word :=
  ((v[7] + bigSigma1 v[4]) + (ch v[4] v[5] v[6] + kt)) + wt

/-- `T2` of a round (R145). -/
def roundT2 (v : Vector Word 8) : Word := bigSigma0 v[0] + maj v[0] v[1] v[2]

/-- The working registers after a round: the eight assignments of R145, all from the old values. -/
def roundRegs (v : Vector Word 8) (kt wt : Word) : Vector Word 8 :=
  #v[roundT1 v kt wt + roundT2 v, v[0], v[1], v[2], v[3] + roundT1 v kt wt, v[4], v[5], v[6]]

/-- The hash state after a block: `H[i] + V[i]` for each i (44 R161). -/
def addWords (h v : Vector Word 8) : Vector Word 8 := Vector.ofFn fun i : Fin 8 => h[i] + v[i]

end Sys2Proof.Machine
end

