-- ==== Sys2Proof/Machine/Ops.lean ====
section
/-! DEFINITION. The named operations the meanings share: giving a response, making locations hold no value,
TAKING A FAULT (spec/60_exceptions.md R179) and, beside it, the only way out of one, reset
(70_reset_and_hazards.md R200); the gate of every command (40_commands.md R90); the datapath steps; PUT,
COMPRESS and PAD (41_padding.md R111 to R113). -/

namespace Sys2Proof.Machine

/-! ### Responses, `undef`, faults and reset -/

/-- Give one response byte (30_encoding.md R85). -/
def respond (b : Byte) (s : State) : State := { s with responses := s.responses ++ [b] }

/-- Respond with STATUS as it is now (R91). -/
def respondStatus (s : State) : State := respond (status s) s

/-- `DIGEST[0..31] <- undef` (10_state.md R35; log 2). -/
def undefDigest (s : State) : State :=
  { s with digest := Config.undefDigest s.fresh, fresh := s.fresh + 1 }

/-- `DISCARD` (44 R163): H, V, W, BUF, N, LEN hold no value. Each becomes a free value (log 2). -/
def discardState (s : State) : State :=
  { s with
    h := Config.undefH s.fresh
    v := Config.undefV s.fresh
    w := Config.undefW s.fresh
    buf := Config.undefBuf s.fresh
    n := Config.undefN s.fresh
    len := Config.undefLen s.fresh
    fresh := s.fresh + 1 }

/-- `raise Fault(c)` (60_exceptions.md R179): everything is dropped, the cause is recorded, the phase is
FAULT, and the response is the new STATUS. Nothing is saved. -/
def raiseFault (c : Cause) (s : State) : State :=
  respondStatus { undefDigest (discardState s) with cause := c, phase := .fault }

/-- `Reset` (70_reset_and_hazards.md R200): PHASE and CAUSE get their values, every datapath location and
DIGEST hold no value, and there is no response. The way out of FAULT, and the only one (R180). Log 18. -/
def hostReset (s : State) : State :=
  { undefDigest (discardState s) with phase := .idle, cause := .none }

/-- The gate every decoded command passes (40_commands.md R90, 60_exceptions.md R178): ignored in FAULT (R100);
otherwise `effect` in the phases where it is legal, and `Fault(SEQUENCE)` in the others. -/
def gate (legal : Phase → Bool) (effect : State → State) (s : State) : State :=
  if s.phase = .fault then respondStatus s
  else if legal s.phase = true then effect s
  else raiseFault .sequence s

/-- What a word that is no command does (R76, R90): `Fault(ILLEGAL_CMD)`, but ignored in FAULT. -/
def illegalCommand (s : State) : State :=
  if s.phase = .fault then respondStatus s else raiseFault .illegalCmd s

/-! ### Datapath steps -/

/-- `INIT` (44 R160). -/
def initState (s : State) : State := { s with h := iv, len := 0, n := 0 }

/-- `LDW t` (42_schedule.md R127). -/
def loadScheduleWord (t : BitVec 4) (s : State) : State :=
  { s with w := setWord s.w (0#2 ++ t) (blockWord s.buf t) }

/-- `EXP t` (R128). -/
def expandScheduleWord (t : BitVec 6) (s : State) : State :=
  { s with w := setWord s.w t (expandWord s.w t) }

/-- `LDV` (43_compression.md R144). -/
def loadWorking (s : State) : State := { s with v := s.h }

/-- `RND t` (R145). -/
def roundStep (t : BitVec 6) (s : State) : State :=
  { s with v := roundRegs s.v (wordAt k t) (wordAt s.w t) }

/-- `ACC` (44 R161). -/
def accumulate (s : State) : State := { s with h := addWords s.h s.v }

/-- `SER` (44 R162). -/
def serialise (s : State) : State := { s with digest := wordsToBytes s.h }

/-! ### Sequences -/

/-- The indices `lo` to `lo + count - 1` of a loop of the spec, in order, as indices of the given width. -/
def indices (width lo count : Nat) : List (BitVec width) :=
  (List.range' lo count).map (BitVec.ofNat width)

/-- `COMPRESS` (41_padding.md R112), in the reference order: LDW 0 to 15, EXP 16 to 63, LDV, RND 0 to 63, ACC. -/
@[irreducible] def compress (s : State) : State :=
  let loaded := (indices 4 0 16).foldl (fun s t => loadScheduleWord t s) s
  let expanded := (indices 6 16 48).foldl (fun s t => expandScheduleWord t s) loaded
  let rounds := (indices 6 0 64).foldl (fun s t => roundStep t s) (loadWorking expanded)
  accumulate rounds

/-- `PUT b` (R111): store a byte at the fill index and advance it; when the buffer fills, compress. -/
def put (b : Byte) (s : State) : State :=
  let stored := { s with buf := setByte s.buf s.n b }
  if s.n = 63#6 then { compress stored with n := 0 } else { stored with n := s.n + 1 }

/-- `LEN <- LEN + 1` of PUSH (R110). At LEN = 2^61 - 1, where PUSH is never issued, LEN becomes a free
value (log 10). -/
def countByte (s : State) : State :=
  if s.len = maxLen then { s with len := Config.lenPastMax s.fresh, fresh := s.fresh + 1 }
  else { s with len := s.len + 1 }

/-- `PUSH b` (R110). -/
def pushByte (b : Byte) (s : State) : State := put b (countByte s)

/-- `PADM` (R114). -/
def padMarker (s : State) : State := put markerByte s

/-- `PADZ` (R115). -/
def padZero (s : State) : State := put 0x00#8 s

/-- `PADL i` (R116). -/
def padLengthByte (i : BitVec 3) (s : State) : State := put (lengthByte s.len i) s

/-- How many PADZ a FINISH issues: `(55 - N) mod 64` (R113). -/
def zeroCount (n : BitVec 6) : Nat := (55#6 - n).toNat

/-- `PAD` (R113). -/
@[irreducible] def padding (s : State) : State :=
  let zeros := Nat.iterate padZero (zeroCount s.n) (padMarker s)
  (indices 3 0 8).foldl (fun s i => padLengthByte i s) zeros

end Sys2Proof.Machine
end

