-- ==== Sys2Proof/Machine/Accumulate.lean ====
section
/-! DEFINITION. The meanings of the micro-operations that own the hash state from the start of a call to its
end (spec/44_accumulate_output.md R160 to R163). -/

namespace Sys2Proof.Machine

/-- `INIT` (R160). -/
def execInit (s : State) : Host.Outcome State Fault Refusal := .next (initState s)

/-- `ACC` (R161). -/
def execAcc (s : State) : Host.Outcome State Fault Refusal := .next (accumulate s)

/-- `SER` (R162). -/
def execSer (s : State) : Host.Outcome State Fault Refusal := .next (serialise s)

/-- `DISCARD` (R163). -/
def execDiscard (s : State) : Host.Outcome State Fault Refusal := .next (discardState s)

end Sys2Proof.Machine
end

