-- ==== Sys2Proof/Machine/Command.lean ====
section
/-! DEFINITION. The meanings of the six host commands (spec/40_commands.md R92 to R96, R99), each behind the
gate of R90. -/

namespace Sys2Proof.Machine

/-- `START` (R92), legal in IDLE and DONE. -/
def execStart (s : State) : Host.Outcome State Fault Refusal :=
  .next (gate (fun p => p = .idle ∨ p = .done)
    (fun s => respondStatus { undefDigest (initState s) with phase := .absorb }) s)

/-- `DATA imm8` (R93), legal in ABSORB; `Fault(LENGTH)` at LEN = 2^61 - 1, before anything is written. -/
def execData (imm8 : BitVec 8) (s : State) : Host.Outcome State Fault Refusal :=
  .next (gate (fun p => p = .absorb)
    (fun s => if s.len = maxLen then raiseFault .length s else respondStatus (pushByte imm8 s)) s)

/-- `FINISH` (R94), legal in ABSORB. -/
def execFinish (s : State) : Host.Outcome State Fault Refusal :=
  .next (gate (fun p => p = .absorb)
    (fun s => respondStatus { discardState (serialise (padding s)) with phase := .done }) s)

/-- `RDDG idx5` (R95), legal in DONE. -/
def execRddg (idx5 : BitVec 5) (s : State) : Host.Outcome State Fault Refusal :=
  .next (gate (fun p => p = .done) (fun s => respond (digestAt s.digest idx5) s) s)

/-- `RDHX idx6` (R96), legal in DONE. -/
def execRdhx (idx6 : BitVec 6) (s : State) : Host.Outcome State Fault Refusal :=
  .next (gate (fun p => p = .done) (fun s => respond (hexView s.digest idx6) s) s)

/-- `STAT` (R99), legal in every phase. -/
def execStat (s : State) : Host.Outcome State Fault Refusal :=
  .next (gate (fun _ => true) respondStatus s)

end Sys2Proof.Machine
end

