-- ==== Sys2Proof/Machine/Padding.lean ====
section
/-! DEFINITION. The meanings of the intake and padding micro-operations (spec/41_padding.md R110, R114 to
R116). None looks at the phase: the sequencer issues them only in its fixed sequences (log 17). -/

namespace Sys2Proof.Machine

/-- `PUSH` (R110): the byte is the `imm8` of the command word on the port (30_encoding.md R83; log 7). -/
def execPush (s : State) : Host.Outcome State Fault Refusal := .next (pushByte (cmdArg s.cmdPort) s)

/-- `PADM` (R114). -/
def execPadm (s : State) : Host.Outcome State Fault Refusal := .next (padMarker s)

/-- `PADZ` (R115). -/
def execPadz (s : State) : Host.Outcome State Fault Refusal := .next (padZero s)

/-- `PADL i` (R116). -/
def execPadl (i : BitVec 3) (s : State) : Host.Outcome State Fault Refusal := .next (padLengthByte i s)

end Sys2Proof.Machine
end

