-- ==== Sys2Proof/Machine/Rounds.lean ====
section
/-! DEFINITION. The meanings of the compression-round micro-operations (spec/43_compression.md R144, R145). -/

namespace Sys2Proof.Machine

/-- `LDV` (R144). -/
def execLdv (s : State) : Host.Outcome State Fault Refusal := .next (loadWorking s)

/-- `RND t` (R145). -/
def execRnd (t : BitVec 6) (s : State) : Host.Outcome State Fault Refusal := .next (roundStep t s)

end Sys2Proof.Machine
end

