-- ==== Sys2Proof/Machine/Schedule.lean ====
section
/-! DEFINITION. The meanings of the message-schedule micro-operations (spec/42_schedule.md R127, R128). -/

namespace Sys2Proof.Machine

/-- `LDW t` (R127). -/
def execLdw (t : BitVec 4) (s : State) : Host.Outcome State Fault Refusal := .next (loadScheduleWord t s)

/-- `EXP t` (R128), t = 16 to 63. The control words 0x1C0 to 0x1CF are never issued, their effect is not
defined and a model should refuse them (30_encoding.md R84; log 11). -/
def execExp (t : BitVec 6) (s : State) : Host.Outcome State Fault Refusal :=
  if 16 ≤ t.toNat then .next (expandScheduleWord t s)
  else .refused (.controlWordOutsideTable (controlWord 0x7#4 t))

end Sys2Proof.Machine
end

