-- ==== Sys2Proof/Machine/Dispatch.lean ====
section
/-! DEFINITION. The one dispatch: each constructor of Instr to its meaning. -/

namespace Sys2Proof.Machine

def exec (i : Instr) (s : State) : Host.Outcome State Fault Refusal :=
  match i with
  -- the six commands (spec/40_commands.md)
  | .start => Sys2Proof.Machine.execStart s
  | .data imm8 => Sys2Proof.Machine.execData imm8 s
  | .finish => Sys2Proof.Machine.execFinish s
  | .rddg idx5 => Sys2Proof.Machine.execRddg idx5 s
  | .rdhx idx6 => Sys2Proof.Machine.execRdhx idx6 s
  | .stat => Sys2Proof.Machine.execStat s
  -- the twelve micro-operations (spec/30_encoding.md R83)
  | .init => Sys2Proof.Machine.execInit s
  | .push => Sys2Proof.Machine.execPush s
  | .padm => Sys2Proof.Machine.execPadm s
  | .padz => Sys2Proof.Machine.execPadz s
  | .padl idx => Sys2Proof.Machine.execPadl idx s
  | .ldw t => Sys2Proof.Machine.execLdw t s
  | .exp t => Sys2Proof.Machine.execExp t s
  | .ldv => Sys2Proof.Machine.execLdv s
  | .rnd t => Sys2Proof.Machine.execRnd t s
  | .acc => Sys2Proof.Machine.execAcc s
  | .ser => Sys2Proof.Machine.execSer s
  | .discard => Sys2Proof.Machine.execDiscard s

end Sys2Proof.Machine
end

