-- ==== Sys2Proof/Machine/Step.lean ====
section
/-! DEFINITION. One step of the machine (spec/00_scope.md R8): take the oldest event and let it happen. -/

namespace Sys2Proof.Machine

/-- A command word is put on the port and decoded; the instruction runs, and a word that is no command raises
`Fault(ILLEGAL_CMD)` (40_commands.md R90). A reset happens (70 R200). A control word runs its micro-operation, and
one outside the table is refused (30_encoding.md R84). With no event pending the engine holds its state
(60_exceptions.md R187; log 6). -/
def step (s : State) : Host.Outcome State Fault Refusal :=
  match s.events with
  | [] => .next s
  | .command c :: rest =>
    match decodeCommand c with
    | .ok i => exec i { s with cmdPort := c, events := rest }
    | .error _ => .next (illegalCommand { s with cmdPort := c, events := rest })
  | .reset :: rest => .next (hostReset { s with events := rest })
  | .control u :: rest =>
    match decodeControl u with
    | .ok i => exec i { s with events := rest }
    | .error _ => .refused (.controlWordOutsideTable u)

/-- The state in which the very next step takes the given word of the opcode table: a command word presented
by the host, or a control word issued by the sequencer, before every other pending event. Logs 15 and 16. -/
def State.withFetchWord (s : State) (nbits w : Nat) : State :=
  match tableWord (w % 2 ^ nbits) with
  | .command c => { s with events := .command c :: s.events }
  | .control u => { s with events := .control u :: s.events }

end Sys2Proof.Machine
end

