-- ==== Sys2Proof/Machine/Algorithm.lean ====
section
/-! DEFINITION. The digest as a function of the message, with no machine in it: the padded message
(spec/41_padding.md R118), the schedule of a block (42_schedule.md R125), the compression function
(43_compression.md R149) and the digest formula (44_accumulate_output.md R164). Statements compare the engine
with it. -/

namespace Sys2Proof.Machine

/-- The schedule of a block from any starting schedule; every word of it is written before it is read. -/
@[irreducible] def scheduleFrom (w : Vector Word 64) (b : Vector Byte 64) : Vector Word 64 :=
  (indices 6 16 48).foldl (fun w t => setWord w t (expandWord w t))
    ((indices 4 0 16).foldl (fun w t => setWord w (0#2 ++ t) (blockWord b t)) w)

/-- `Sched(B)` (R125). -/
@[irreducible] def schedule (b : Vector Byte 64) : Vector Word 64 := scheduleFrom (Vector.replicate 64 0) b

/-- `Rounds(H, W)` (R149): the 64 rounds applied to V = H. -/
@[irreducible] def roundsOf (h : Vector Word 8) (w : Vector Word 64) : Vector Word 8 :=
  (indices 6 0 64).foldl (fun v t => roundRegs v (wordAt k t) (wordAt w t)) h

/-- The compression function of a block (R149). -/
@[irreducible] def compressBlock (h : Vector Word 8) (b : Vector Byte 64) : Vector Word 8 :=
  addWords h (roundsOf h (schedule b))

/-- Block `j` of a byte string: bytes `64j` to `64j + 63` (R118). -/
@[irreducible] def blockOf (p : List Byte) (j : Nat) : Vector Byte 64 :=
  Vector.ofFn fun i : Fin 64 => p.getD (64 * j + i.val) 0

/-- The hash state after the first `count` blocks of a byte string: `H_count` of R164. -/
@[irreducible] def hashBlocks (p : List Byte) (count : Nat) : Vector Word 8 :=
  (List.range count).foldl (fun h j => compressBlock h (blockOf p j)) iv

/-- How many zero bytes the padding has: `(55 - L) mod 64` (R118). -/
def zeroBytes (length : Nat) : Nat := ((55 - (length : Int)) % 64).toNat

/-- `BE64(8 L)`: the eight bytes of the bit length, most significant first (R118). -/
def be64 (length : Nat) : List Byte :=
  (List.range 8).map fun i => (BitVec.ofNat 64 (8 * length)).extractLsb' (56 - 8 * i) 8

/-- The padded message (R118). -/
def padMessage (m : List Byte) : List Byte :=
  m ++ [markerByte] ++ List.replicate (zeroBytes m.length) 0x00#8 ++ be64 m.length

/-- `H_k` of R164: the hash state after every block of the padded message. -/
def finalHash (m : List Byte) : Vector Word 8 := hashBlocks (padMessage m) ((padMessage m).length / 64)

/-- The digest of a message (R164). -/
def sha256 (m : List Byte) : Vector Byte 32 := wordsToBytes (finalHash m)

end Sys2Proof.Machine
end

