-- ==== Sys2Proof/Machine/Assembler.lean ====
section
/-! DEFINITION. The textual form of a command stream and its pseudo-instructions (spec/30_encoding.md R80,
R81), as a function from lines to words. It is the host's tool and no part of the engine. Conventions the spec
leaves open are log 25. -/

namespace Sys2Proof.Machine

/-- Whether a character separates tokens. -/
def isBlank (c : Char) : Bool := c == ' ' || c == '\t'

/-- A line less its leading blanks. -/
def skipBlanks : List Char → List Char
  | [] => []
  | c :: cs => if isBlank c then skipBlanks cs else c :: cs

/-- Whether nothing but blanks and a comment is left of a line: a `;` starts a comment (R80). -/
def restIsEmpty (cs : List Char) : Bool :=
  match skipBlanks cs with
  | [] => true
  | c :: _ => c == ';'

/-- The tokens of a line up to its comment; `cur` is the token being read, last character first. -/
def tokensFrom (cur : List Char) : List Char → List (List Char)
  | [] => if cur = [] then [] else [cur.reverse]
  | c :: cs =>
    if c == ';' then (if cur = [] then [] else [cur.reverse])
    else if isBlank c then (if cur = [] then tokensFrom [] cs else cur.reverse :: tokensFrom [] cs)
    else tokensFrom (c :: cur) cs

/-- The value of a decimal digit. -/
def decDigit (c : Char) : Option Nat :=
  if 48 ≤ c.toNat ∧ c.toNat ≤ 57 then some (c.toNat - 48) else none

/-- The value of a hexadecimal digit of either case. -/
def hexDigitValue (c : Char) : Option Nat :=
  if 48 ≤ c.toNat ∧ c.toNat ≤ 57 then some (c.toNat - 48)
  else if 97 ≤ c.toNat ∧ c.toNat ≤ 102 then some (c.toNat - 87)
  else if 65 ≤ c.toNat ∧ c.toNat ≤ 70 then some (c.toNat - 55)
  else none

/-- The number a list of digits writes in a base, from a value already read. -/
def digitsFrom (base : Nat) (digit : Char → Option Nat) (acc : Nat) : List Char → Option Nat
  | [] => some acc
  | c :: cs =>
    match digit c with
    | some d => digitsFrom base digit (base * acc + d) cs
    | none => none

/-- A decimal number: at least one digit. -/
def decimal : List Char → Option Nat
  | [] => none
  | c :: cs => digitsFrom 10 decDigit 0 (c :: cs)

/-- `0x` and exactly the given count of hex digits. -/
def hexadecimal (count : Nat) : List Char → Option Nat
  | '0' :: 'x' :: cs => if cs.length = count then digitsFrom 16 hexDigitValue 0 cs else none
  | _ => none

/-- The byte operand of DATA and BYTES: `0x` and two hex digits, or a decimal number 0 to 255 (R80). -/
def byteOperand (cs : List Char) : Option Byte :=
  match hexadecimal 2 cs with
  | some x => some (BitVec.ofNat 8 x)
  | none =>
    match decimal cs with
    | some x => if x ≤ 255 then some (BitVec.ofNat 8 x) else none
    | none => none

/-- A decimal index operand below the given bound (R80). -/
def indexOperand (bound : Nat) (cs : List Char) : Option Nat :=
  match decimal cs with
  | some x => if x < bound then some x else none
  | none => none

/-- The bytes of a list of operands; refused if one is. -/
def byteOperands : List (List Char) → Option (List Byte)
  | [] => some []
  | t :: ts =>
    match byteOperand t, byteOperands ts with
    | some b, some bs => some (b :: bs)
    | _, _ => none

/-- The ASCII codes of a text in double quotes and what follows it on the line: printable ASCII only, without
the double quote itself (R81). -/
def quotedFrom : List Char → Option (List Byte × List Char)
  | [] => none
  | c :: cs =>
    if c.toNat = 34 then some ([], cs)
    else if 32 ≤ c.toNat ∧ c.toNat ≤ 126 then
      match quotedFrom cs with
      | some (bs, rest) => some (BitVec.ofNat 8 c.toNat :: bs, rest)
      | none => none
    else none

/-- A quoted text that is the rest of a line but for blanks and a comment. -/
def quotedText (cs : List Char) : Option (List Byte) :=
  match skipBlanks cs with
  | [] => none
  | c :: cs =>
    if c.toNat = 34 then
      match quotedFrom cs with
      | some (bs, rest) => if restIsEmpty rest then some bs else none
      | none => none
    else none

/-- The expansion of `MSG`: one DATA per byte (R81). -/
def msgInstrs (bs : List Byte) : List Instr := bs.map .data

/-- The expansion of `HASH`: START, the message, FINISH (R81). -/
def hashInstrs (bs : List Byte) : List Instr := .start :: msgInstrs bs ++ [.finish]

/-- The expansion of `RDDG*` (R81). -/
def rddgAll : List Instr := (List.range 32).map fun i => .rddg (BitVec.ofNat 5 i)

/-- The expansion of `RDHX*` (R81). -/
def rdhxAll : List Instr := (List.range 64).map fun j => .rdhx (BitVec.ofNat 6 j)

/-- The words of a list of instructions. -/
def wordsOf (is : List Instr) : List InstrWord := is.map encode

/-- The words of a line given as tokens (R80, R81); `none` where the assembler refuses it. -/
def assembleTokens : List (List Char) → Option (List InstrWord)
  | [] => some []
  | op :: args =>
    if op = "START".toList then (if args = [] then some (wordsOf [.start]) else none)
    else if op = "FINISH".toList then (if args = [] then some (wordsOf [.finish]) else none)
    else if op = "STAT".toList then (if args = [] then some (wordsOf [.stat]) else none)
    else if op = "RDDG*".toList then (if args = [] then some (wordsOf rddgAll) else none)
    else if op = "RDHX*".toList then (if args = [] then some (wordsOf rdhxAll) else none)
    else if op = "BYTES".toList then
      (if args = [] then none else (byteOperands args).map fun bs => wordsOf (msgInstrs bs))
    else
      match args with
      | [arg] =>
        if op = "DATA".toList then (byteOperand arg).map fun b => wordsOf [.data b]
        else if op = "RDDG".toList then
          (indexOperand 32 arg).map fun i => wordsOf [.rddg (BitVec.ofNat 5 i)]
        else if op = "RDHX".toList then
          (indexOperand 64 arg).map fun j => wordsOf [.rdhx (BitVec.ofNat 6 j)]
        else if op = ".word".toList then
          (hexadecimal 4 arg).map fun x => [InstrWord.command (BitVec.ofNat 16 x)]
        else none
      | _ => none

/-- The words of one line: MSG and HASH take a quoted text, every other mnemonic takes tokens (R80, R81). -/
def assembleLine (line : List Char) : Option (List InstrWord) :=
  match skipBlanks line with
  | 'M' :: 'S' :: 'G' :: c :: rest =>
    if isBlank c then (quotedText rest).map fun bs => wordsOf (msgInstrs bs) else none
  | 'H' :: 'A' :: 'S' :: 'H' :: c :: rest =>
    if isBlank c then (quotedText rest).map fun bs => wordsOf (hashInstrs bs) else none
  | cs => assembleTokens (tokensFrom [] cs)

/-- The words of a program, line by line; refused if one line is. -/
def assemble : List String → Option (List InstrWord)
  | [] => some []
  | l :: ls =>
    match assembleLine l.toList, assemble ls with
    | some ws, some rest => some (ws ++ rest)
    | _, _ => none

end Sys2Proof.Machine
end

