-- ==== Sys2Proof/Machine/Sequencer.lean ====
section
/-! DEFINITION. The sequencer's side of the commands: which micro-operations each command issues, in the
reference order (spec/30_encoding.md R84, 40_commands.md R101, 41_padding.md R112, R113), and running a list of
instructions one after the other. The commands of Command.lean do not call these lists; statements compare
the two. Logs 22 and 23. -/

namespace Sys2Proof.Machine

/-- Run instructions in order, stopping at the first that answers no next state. -/
def runAll : List Instr → State → Host.Outcome State Fault Refusal
  | [], s => .next s
  | i :: rest, s =>
    match exec i s with
    | .next t => runAll rest t
    | .fault r => .fault r
    | .refused r => .refused r

/-- The 130 micro-operations of COMPRESS (R112). -/
def compressSeq : List Instr :=
  (indices 4 0 16).map .ldw ++ (indices 6 16 48).map .exp ++ [.ldv] ++ (indices 6 0 64).map .rnd ++ [.acc]

/-- The micro-operations of PAD (R113) for the fill index at FINISH, without those of the COMPRESS sequences
inside them. -/
def padSeq (n : BitVec 6) : List Instr :=
  .padm :: List.replicate (zeroCount n) .padz ++ (indices 3 0 8).map .padl

/-- The micro-operations a command runs at the top level: each runs its own COMPRESS when the buffer fills. -/
def commandSeq : Instr → State → List Instr
  | .start, _ => [.init]
  | .data _, _ => [.push]
  | .finish, s => padSeq s.n ++ [.ser, .discard]
  | _, _ => []

/-- What one byte-storing micro-operation issues in all: itself and, when it fills the buffer, COMPRESS (R111). -/
def putIssues (i : Instr) (n : BitVec 6) : List Instr := i :: (if n = 63#6 then compressSeq else [])

/-- What a list of byte-storing micro-operations issues, from the given fill index on. -/
def putsIssue : List Instr → BitVec 6 → List Instr
  | [], _ => []
  | i :: rest, n => putIssues i n ++ putsIssue rest (n + 1)

/-- What a command issues where it is neither ignored nor faulted (R101). -/
def effectIssues (i : Instr) (s : State) : List Instr :=
  match i with
  | .start => [.init]
  | .data _ => putIssues .push s.n
  | .finish => putsIssue (padSeq s.n) s.n ++ [.ser, .discard]
  | _ => []

/-- Whether a command faults in a state whose phase is not FAULT (R90, R98). -/
def commandFaults (i : Instr) (s : State) : Bool :=
  match i with
  | .start => decide (s.phase = .absorb)
  | .data _ => decide (s.phase ≠ .absorb ∨ s.len = maxLen)
  | .finish => decide (s.phase ≠ .absorb)
  | .rddg _ | .rdhx _ => decide (s.phase ≠ .done)
  | _ => false

/-- All micro-operations a command issues, in order (R101): none in phase FAULT, DISCARD alone for a command
that faults (60_exceptions.md R179). -/
def issued (i : Instr) (s : State) : List Instr :=
  if s.phase = .fault then [] else if commandFaults i s = true then [.discard] else effectIssues i s

/-- All micro-operations a command word issues (R101): those of the command it is, and for a word that is no
command DISCARD alone, as it faults (R76, 60_exceptions.md R179), but none in phase FAULT (R100). -/
def issuedByWord (c : BitVec 16) (s : State) : List Instr :=
  match decodeCommand c with
  | .ok i => issued i s
  | .error _ => if s.phase = .fault then [] else [.discard]

end Sys2Proof.Machine
end

