-- ==== Sys2Proof/Safety.lean ====
section
/-! DEFINITION. The terms the statements use: the invariants of the engine (spec/10_state.md R22, R28), what is
defined in each phase (R40), a call in progress on a message (R14, R40), a fault taken (60_exceptions.md R179),
the table of phases (40_commands.md R98), and the commands of a well-formed call with their responses (R97). -/

namespace Sys2Proof.Machine

/-! ### Invariants -/

/-- CAUSE is 0 exactly when PHASE is not FAULT (R22). -/
def StatusOk (s : State) : Prop := s.cause = .none ↔ s.phase ≠ .fault

/-- In ABSORB the fill index is the message length modulo 64 (R28, R40). -/
def FillOk (s : State) : Prop := s.phase = .absorb → s.n.toNat = s.len.toNat % 64

/-- Whether an event is one a host can cause: a command or reset, and no control word (30_encoding.md R83). -/
def Event.fromHost : Event → Bool
  | .command _ => true
  | .reset => true
  | .control _ => false

/-- Only a host drives the engine: no control word is pending. -/
def HostDriven (s : State) : Prop := ∀ e ∈ s.events, e.fromHost = true

/-- The invariant of an engine that only a host drives. -/
def EngineInv (s : State) : Prop := StatusOk s ∧ FillOk s ∧ HostDriven s

/-- Two states hold the same values wherever R40 says a location is defined in their phase; everything else
may differ. -/
def AgreeWhereDefined (s t : State) : Prop :=
  s.phase = t.phase ∧ s.cause = t.cause ∧
  (s.phase = .absorb →
    s.h = t.h ∧ s.n = t.n ∧ s.len = t.len ∧
    ∀ i : BitVec 6, i.toNat < s.n.toNat → byteAt s.buf i = byteAt t.buf i) ∧
  (s.phase = .done → s.digest = t.digest)

/-! ### A call in progress -/

/-- The byte string `p` has been put through the buffer since INIT: N is its length modulo 64, BUF holds its
last N bytes, and H is the hash state after its whole blocks (R40, 41_padding.md R111). -/
def Fed (s : State) (p : List Byte) : Prop :=
  s.n.toNat = p.length % 64 ∧
  s.h = hashBlocks p (p.length / 64) ∧
  ∀ i : BitVec 6, i.toNat < p.length % 64 → byteAt s.buf i = p.getD (64 * (p.length / 64) + i.toNat) 0

/-- A call is in progress and has taken the message bytes `m` (R14, R40). -/
def Absorbing (s : State) (m : List Byte) : Prop :=
  s.phase = .absorb ∧ s.cause = .none ∧ s.len.toNat = m.length ∧ Fed s m

/-! ### Outcomes of a command -/

/-- `t` is `s` after the fault `c` was taken (60_exceptions.md R179): the cause and the phase, one response, which
is the new STATUS, and no other trace of it. H, V, W, BUF, N, LEN and DIGEST hold no value, so nothing is said of
them. -/
def FaultTaken (c : Cause) (s t : State) : Prop :=
  t.phase = .fault ∧ t.cause = c ∧ t.responses = s.responses ++ [status t] ∧
  t.events = s.events ∧ t.cmdPort = s.cmdPort

/-- Whether an instruction is one of the six host commands. -/
def IsCommand (i : Instr) : Bool :=
  match encode i with
  | .command _ => true
  | .control _ => false

/-- The phase and the cause after a decoded command, row by row of the table of R98. -/
def commandOutcome (s : State) (i : Instr) : Phase × Cause :=
  match s.phase, i with
  | .fault, _ => (.fault, s.cause)
  | .idle, .start => (.absorb, s.cause)
  | .idle, .stat => (.idle, s.cause)
  | .idle, _ => (.fault, .sequence)
  | .absorb, .data _ => if s.len.toNat = 2 ^ 61 - 1 then (.fault, .length) else (.absorb, s.cause)
  | .absorb, .finish => (.done, s.cause)
  | .absorb, .stat => (.absorb, s.cause)
  | .absorb, _ => (.fault, .sequence)
  | .done, .start => (.absorb, s.cause)
  | .done, .rddg _ => (.done, s.cause)
  | .done, .rdhx _ => (.done, s.cause)
  | .done, .stat => (.done, s.cause)
  | .done, _ => (.fault, .sequence)

/-- The phase and the cause after a command word: the table of R98 with its column of illegal words. -/
def wordOutcome (s : State) (c : BitVec 16) : Phase × Cause :=
  match decodeCommand c with
  | .ok i => commandOutcome s i
  | .error _ => if s.phase = .fault then (.fault, s.cause) else (.fault, .illegalCmd)

/-- The byte a byte-storing micro-operation hands to PUT (41_padding.md R110, R114 to R116): for PUSH the operand
of the command on the port, for PADL byte `i` of the 64-bit big-endian bit length. -/
def storedByte : Instr → State → Option Byte
  | .push, s => some (s.cmdPort.setWidth 8)
  | .padm, _ => some 0x80#8
  | .padz, _ => some 0x00#8
  | .padl i, s => some (BitVec.ofNat 8 (8 * s.len.toNat / 2 ^ (56 - 8 * i.toNat)))
  | _, _ => none

/-! ### A well-formed call -/

/-- The command words of a call on a message, from START to FINISH (R97). -/
def callWords (m : List Byte) : List (BitVec 16) :=
  0x1000#16 :: m.map (fun b => 0x20#8 ++ b) ++ [0x3000#16]

/-- The word of STAT. -/
def statWord : BitVec 16 := 0x6000#16

/-- Whether a word is one of RDDG 0 to RDDG 31 or RDHX 0 to RDHX 63 (30_encoding.md R74). -/
def IsRead (c : BitVec 16) : Prop := c &&& 0xFFE0#16 = 0x4000#16 ∨ c &&& 0xFFC0#16 = 0x5000#16

/-- The response R97 gives each command of a call on `m`, other than STAT: 0x01 to START and DATA, 0x02 to FINISH,
a byte of the digest to RDDG, a character of its hex rendering to RDHX. -/
def callResponse (m : List Byte) (c : BitVec 16) : Byte :=
  if c &&& 0xFFE0#16 = 0x4000#16 then digestAt (sha256 m) (c.setWidth 5)
  else if c &&& 0xFFC0#16 = 0x5000#16 then hexView (sha256 m) (c.setWidth 6)
  else if c = 0x3000#16 then 0x02#8
  else 0x01#8

/-- The inverse of `hexdigit` on the sixteen lowercase hex characters (44_accumulate_output.md R170). -/
def unhex (b : Byte) : BitVec 4 := if b < 0x3A#8 then (b - 0x30#8).setWidth 4 else (b - 0x57#8).setWidth 4

end Sys2Proof.Machine
end

