-- ==== Sys2Proof/Certificates/Slice0/Obligations.lean ====
section
/-! DEFINITION. The statements for the provers. Each docstring names the rule of spec/ it formalises, or the
sections it rests on. Where a rule says a location holds no value, nothing is said of that location, and a
statement holds for every free value and for every value of the counter `fresh`. -/

open Sys2Proof Sys2Proof.Machine

/-! ### The step -/

/-- A step takes the oldest event: a command word is put on the port, decoded and run, a control word runs its
micro-operation, reset happens (00_scope.md R8, 40_commands.md R90). What a step does with no event pending is the
model's choice, log 6; that control words are events is log 5. -/
def Obligations.StepRunsTheNextEvent : Prop :=
  ∀ s : State,
    (s.events = [] → step s = .next s) ∧
    (∀ c rest i, s.events = .command c :: rest → decodeCommand c = .ok i →
      step s = exec i { s with cmdPort := c, events := rest }) ∧
    (∀ c rest e, s.events = .command c :: rest → decodeCommand c = .error e →
      step s = .next (illegalCommand { s with cmdPort := c, events := rest })) ∧
    (∀ u rest i, s.events = .control u :: rest → decodeControl u = .ok i →
      step s = exec i { s with events := rest }) ∧
    (∀ u rest e, s.events = .control u :: rest → decodeControl u = .error e →
      step s = .refused (.controlWordOutsideTable u)) ∧
    (∀ rest, s.events = .reset :: rest → step s = .next (hostReset { s with events := rest }))

/-- Reset, from any state (R200): PHASE and CAUSE get their values, STATUS is 0x00, there is no response. The
datapath locations and DIGEST hold no value. -/
def Obligations.ResetEventLeavesIdle : Prop :=
  ∀ (s : State) rest, s.events = .reset :: rest →
    ∃ t, step s = .next t ∧ t.phase = .idle ∧ t.cause = .none ∧ status t = 0x00#8 ∧
      t.responses = s.responses ∧ t.events = rest ∧ t.cmdPort = s.cmdPort

/-- The reset state is IDLE with no cause (R37) and meets the engine's invariant. That no event is pending and no
response given is the model's choice, logs 5 and 8. -/
def Obligations.ResetStateMeetsInvariant : Prop :=
  State.reset.phase = .idle ∧ State.reset.cause = .none ∧ status State.reset = 0x00#8 ∧
    EngineInv State.reset

/-- A word of the opcode table placed for the next step is run by it (the model's own functions, logs 15, 16). -/
def Obligations.PlacedTableWordRuns : Prop :=
  ∀ (s : State) (nbits w : Nat) i, decodeTableWord nbits w = some i →
    ∃ port, step (s.withFetchWord nbits w) = exec i { s with cmdPort := port }

/-! ### Encoding -/

/-- R74 with R73: each command's words are those its match and mask select, which are so many words in a row from
the match on; its operand is the low bits of the word as an unsigned number; 355 words are commands and 65,181 are
not. -/
def Obligations.CommandWordPatterns : Prop :=
  (∀ c : BitVec 16,
    (decodeCommand c = .ok .start ↔ c &&& 0xFFFF#16 = 0x1000#16) ∧
    (∀ b, decodeCommand c = .ok (.data b) ↔ c &&& 0xFF00#16 = 0x2000#16 ∧ b.toNat = c.toNat % 256) ∧
    (decodeCommand c = .ok .finish ↔ c &&& 0xFFFF#16 = 0x3000#16) ∧
    (∀ i, decodeCommand c = .ok (.rddg i) ↔ c &&& 0xFFE0#16 = 0x4000#16 ∧ i.toNat = c.toNat % 32) ∧
    (∀ j, decodeCommand c = .ok (.rdhx j) ↔ c &&& 0xFFC0#16 = 0x5000#16 ∧ j.toNat = c.toNat % 64) ∧
    (decodeCommand c = .ok .stat ↔ c &&& 0xFFFF#16 = 0x6000#16) ∧
    (∀ i, decodeCommand c = .ok i → IsCommand i = true)) ∧
  (∀ c : BitVec 16,
    (c &&& 0xFFFF#16 = 0x1000#16 ↔ c.toNat = 0x1000) ∧
    (c &&& 0xFF00#16 = 0x2000#16 ↔ 0x2000 ≤ c.toNat ∧ c.toNat < 0x2000 + 256) ∧
    (c &&& 0xFFFF#16 = 0x3000#16 ↔ c.toNat = 0x3000) ∧
    (c &&& 0xFFE0#16 = 0x4000#16 ↔ 0x4000 ≤ c.toNat ∧ c.toNat < 0x4000 + 32) ∧
    (c &&& 0xFFC0#16 = 0x5000#16 ↔ 0x5000 ≤ c.toNat ∧ c.toNat < 0x5000 + 64) ∧
    (c &&& 0xFFFF#16 = 0x6000#16 ↔ c.toNat = 0x6000)) ∧
  (Finset.univ.filter fun c : BitVec 16 => isInstr (decodeCommand c) = true).card = 355 ∧
  (Finset.univ.filter fun c : BitVec 16 => isInstr (decodeCommand c) = false).card = 65181

/-- R76: the illegal words are exactly the six classes, with or without the hex helper; executing one raises
ILLEGAL_CMD, and in phase FAULT it is ignored. -/
def Obligations.IllegalWordsFault : Prop :=
  (∀ (hasHex : Bool) (c : BitVec 16),
    isInstr (decodeCommandWith hasHex c) = false ↔
      (c.toNat / 256 % 16 ≠ 0 ∨
       c.toNat / 4096 = 0 ∨ 7 ≤ c.toNat / 4096 ∨
       ((c.toNat / 4096 = 1 ∨ c.toNat / 4096 = 3 ∨ c.toNat / 4096 = 6) ∧ c.toNat % 256 ≠ 0) ∨
       (c.toNat / 4096 = 4 ∧ 31 < c.toNat % 256) ∨
       (c.toNat / 4096 = 5 ∧ 63 < c.toNat % 256) ∨
       (hasHex = false ∧ c.toNat / 4096 = 5))) ∧
  (∀ (s : State) c rest, s.events = .command c :: rest → isInstr (decodeCommand c) = false →
    ∃ t, step s = .next t ∧
      (s.phase ≠ .fault →
        FaultTaken .illegalCmd { s with cmdPort := c, events := rest } t ∧ status t = 0x07#8) ∧
      (s.phase = .fault →
        t = { s with cmdPort := c, events := rest, responses := s.responses ++ [status s] }))

/-- Decoding the encoded word of any well-formed instruction gives it back, with every operand at every value its
encoding admits (30_encoding.md sections 1, 2 and 6). -/
def Obligations.DecodeEncodeRoundTrip : Prop :=
  ∀ i : Instr, i.WellFormed → decode (encode i) = .ok i

/-- Each word has one meaning: a word that decodes is the encoding of what it decodes to, and that is
well-formed. -/
def Obligations.EncodeDecodeRoundTrip : Prop :=
  ∀ (w : InstrWord) i, decode w = .ok i → encode i = w ∧ i.WellFormed

/-- R82: the worked encodings, and the illegal neighbour of each. -/
def Obligations.WorkedEncodings : Prop :=
  decodeCommand 0x1000#16 = .ok .start ∧
  decodeCommand 0x2061#16 = .ok (.data 0x61#8) ∧
  decodeCommand 0x2000#16 = .ok (.data 0x00#8) ∧
  decodeCommand 0x20FF#16 = .ok (.data 0xFF#8) ∧
  decodeCommand 0x3000#16 = .ok .finish ∧
  decodeCommand 0x4000#16 = .ok (.rddg 0#5) ∧
  decodeCommand 0x401F#16 = .ok (.rddg 31#5) ∧
  decodeCommand 0x5000#16 = .ok (.rdhx 0#6) ∧
  decodeCommand 0x503F#16 = .ok (.rdhx 63#6) ∧
  decodeCommand 0x6000#16 = .ok .stat ∧
  [0x1001#16, 0x2161#16, 0x3080#16, 0x4020#16, 0x5040#16, 0x6001#16, 0x0000#16, 0x7000#16, 0xFFFF#16].map
      (fun c => isInstr (decodeCommand c)) =
    [false, false, false, false, false, false, false, false, false]

/-- R79: with the helper, `op` 0x5 decodes as RDHX (where the index fits, R71); without it, every word of `op` 0x5
is illegal and every other word decodes as before. -/
def Obligations.HexHelperParameter : Prop :=
  (∀ j : BitVec 6, decodeCommandWith true (commandWord 0x5#4 (j.setWidth 8)) = .ok (.rdhx j)) ∧
  (∀ c : BitVec 16, c.toNat / 4096 = 5 → isInstr (decodeCommandWith false c) = false) ∧
  (∀ c : BitVec 16, c.toNat / 4096 ≠ 5 → decodeCommandWith false c = decodeCommandWith true c)

/-- R83: the control words, row by row of the table, and no others. -/
def Obligations.ControlWordTable : Prop :=
  ∀ u : BitVec 10,
    (decodeControl u = .ok .init ↔ u.toNat = 0x040) ∧
    (decodeControl u = .ok .push ↔ u.toNat = 0x080) ∧
    (decodeControl u = .ok .padm ↔ u.toNat = 0x0C0) ∧
    (decodeControl u = .ok .padz ↔ u.toNat = 0x100) ∧
    (∀ i, decodeControl u = .ok (.padl i) ↔ u.toNat = 0x140 + i.toNat) ∧
    (∀ t, decodeControl u = .ok (.ldw t) ↔ u.toNat = 0x180 + t.toNat) ∧
    (∀ t, decodeControl u = .ok (.exp t) ↔ u.toNat = 0x1C0 + t.toNat ∧ 16 ≤ t.toNat) ∧
    (decodeControl u = .ok .ldv ↔ u.toNat = 0x200) ∧
    (∀ t, decodeControl u = .ok (.rnd t) ↔ u.toNat = 0x240 + t.toNat) ∧
    (decodeControl u = .ok .acc ↔ u.toNat = 0x280) ∧
    (decodeControl u = .ok .ser ↔ u.toNat = 0x2C0) ∧
    (decodeControl u = .ok .discard ↔ u.toNat = 0x300) ∧
    (∀ i, decodeControl u = .ok i → IsCommand i = false)

/-- A control word outside the table is refused, and so is EXP with an index below 16 (R84; the refusal is what
the rule says a model should do, log 11). -/
def Obligations.ControlWordsOutsideTableRefused : Prop :=
  (∀ (s : State) u rest, s.events = .control u :: rest → isInstr (decodeControl u) = false →
    step s = .refused (.controlWordOutsideTable u)) ∧
  (∀ (s : State) (t : BitVec 6), t.toNat < 16 → ∃ u, exec (.exp t) s = .refused (.controlWordOutsideTable u))

/-- The sequencer issues only control words of the table, with an index in the stated range (R84), whatever the
command word, legal or not, and the state. -/
def Obligations.SequencerIssuesTableWords : Prop :=
  (∀ (i : Instr) (s : State), ∀ j ∈ issued i s, ∃ u, encode j = .control u ∧ decodeControl u = .ok j) ∧
  (∀ (c : BitVec 16) (s : State), ∀ j ∈ issuedByWord c s, ∃ u, encode j = .control u ∧ decodeControl u = .ok j)

/-! ### STATUS, phases and faults -/

/-- R31 with the codes of R21 and R22: bits 1:0 are PHASE, bits 4:2 are CAUSE, bits 7:5 are zero; where CAUSE is 0
exactly outside FAULT (R22), STATUS takes only the six values of R31. -/
def Obligations.StatusByteValues : Prop :=
  (Phase.code .idle = 0#2 ∧ Phase.code .absorb = 1#2 ∧ Phase.code .done = 2#2 ∧ Phase.code .fault = 3#2) ∧
  (Cause.code .none = 0#3 ∧ Cause.code .illegalCmd = 1#3 ∧ Cause.code .sequence = 2#3 ∧
    Cause.code .length = 3#3) ∧
  ∀ s : State,
    (status s).toNat = 4 * s.cause.code.toNat + s.phase.code.toNat ∧
    (StatusOk s →
      (s.phase = .idle ∧ status s = 0x00#8) ∨ (s.phase = .absorb ∧ status s = 0x01#8) ∨
      (s.phase = .done ∧ status s = 0x02#8) ∨
      (s.phase = .fault ∧ s.cause = .illegalCmd ∧ status s = 0x07#8) ∨
      (s.phase = .fault ∧ s.cause = .sequence ∧ status s = 0x0B#8) ∨
      (s.phase = .fault ∧ s.cause = .length ∧ status s = 0x0F#8))

/-- R98 with R178: for every command word in every phase, the phase and the cause after it are those of the table;
the order of the fault tests is FAULT, illegal word, wrong phase, length. Reset leads from any phase to IDLE. -/
def Obligations.PhaseTable : Prop :=
  (∀ (s : State) c rest, s.events = .command c :: rest →
    ∃ t, step s = .next t ∧ (t.phase, t.cause) = wordOutcome s c) ∧
  (∀ (s : State) i, IsCommand i = true →
    ∃ t, exec i s = .next t ∧ (t.phase, t.cause) = commandOutcome s i) ∧
  (∀ (s : State) rest, s.events = .reset :: rest → ∃ t, step s = .next t ∧ t.phase = .idle)

/-- Fault entry (60_exceptions.md section 1): the cause and the phase are recorded, the response is the new STATUS,
which is 0x07, 0x0B or 0x0F, and the port and the pending events are untouched. -/
def Obligations.FaultEntryRecordsCause : Prop :=
  ∀ (c : Cause) (s : State), c ≠ .none →
    FaultTaken c s (raiseFault c s) ∧
    (raiseFault c s).responses = s.responses ++
      [match c with | .none => 0x03#8 | .illegalCmd => 0x07#8 | .sequence => 0x0B#8 | .length => 0x0F#8]

/-- R100: in phase FAULT every command word, legal or not, changes nothing and responds with STATUS. The port holds
the word and the event is taken, which are the model's own fields. -/
def Obligations.FaultPhaseIgnoresCommands : Prop :=
  ∀ (s : State) c rest, s.phase = .fault → s.events = .command c :: rest →
    step s = .next { s with cmdPort := c, events := rest, responses := s.responses ++ [status s] }

/-- R180: no event but reset leaves phase FAULT or changes the cause there. -/
def Obligations.OnlyResetLeavesFault : Prop :=
  ∀ s t : State, s.phase = .fault → step s = .next t →
    (t.phase = .fault ∧ t.cause = s.cause) ∨
    (∃ rest, s.events = .reset :: rest ∧ t.phase = .idle ∧ t.cause = .none)

/-- One response per command, and none without one (40_commands.md section 1): a data byte from RDDG or RDHX in
phase DONE, STATUS as it is after the command in every other case. -/
def Obligations.OneResponsePerCommand : Prop :=
  (∀ (s : State) c rest, s.events = .command c :: rest →
    ∃ t b, step s = .next t ∧ t.events = rest ∧ t.responses = s.responses ++ [b] ∧
      b = if s.phase = .done ∧ c &&& 0xFFE0#16 = 0x4000#16 then digestAt s.digest (c.setWidth 5)
          else if s.phase = .done ∧ c &&& 0xFFC0#16 = 0x5000#16 then hexView s.digest (c.setWidth 6)
          else status t) ∧
  (∀ s t : State, (∀ c rest, s.events ≠ .command c :: rest) → step s = .next t → t.responses = s.responses)

/-- CAUSE stays 0 exactly when PHASE is not FAULT (R22), under every event, a control word among them. -/
def Obligations.StatusInvariantKept : Prop :=
  ∀ s t : State, StatusOk s → step s = .next t → StatusOk t

/-- Every step of an engine that only a host drives keeps the invariant: CAUSE is 0 exactly when PHASE is not FAULT
(R22), N = LEN mod 64 in ABSORB (R28, R40), and no control word becomes pending (R83). -/
def Obligations.EngineInvariantKept : Prop :=
  ∀ s t : State, EngineInv s → step s = .next t → EngineInv t

/-! ### The six commands -/

/-- R92: START in IDLE or DONE begins a call and responds 0x01; in ABSORB it raises SEQUENCE. DIGEST holds no
value after it. -/
def Obligations.StartBeginsCall : Prop :=
  ∀ s : State, StatusOk s →
    ((s.phase = .idle ∨ s.phase = .done) →
      ∃ t, exec .start s = .next t ∧
        t = { s with phase := .absorb, h := iv, len := 0, n := 0, digest := t.digest, fresh := t.fresh,
                     responses := s.responses ++ [0x01#8] } ∧
        t.h[0] = 0x6a09e667#32) ∧
    (s.phase = .absorb → ∃ t, exec .start s = .next t ∧ FaultTaken .sequence s t ∧ status t = 0x0B#8)

/-- R93: DATA in ABSORB appends its byte at BUF[N], counts it and responds 0x01; the 64th byte of a block runs
COMPRESS and returns N to 0; at LEN = 2^61 - 1 it raises LENGTH and outside ABSORB it raises SEQUENCE. -/
def Obligations.DataAppendsByte : Prop :=
  ∀ (s : State) (b : BitVec 8), StatusOk s →
    (s.phase = .absorb → s.len.toNat < 2 ^ 61 - 1 →
      ∃ t, exec (.data b) s = .next t ∧
        t.len.toNat = s.len.toNat + 1 ∧
        byteAt t.buf s.n = b ∧ (∀ i, i ≠ s.n → byteAt t.buf i = byteAt s.buf i) ∧
        (s.n.toNat < 63 →
          t.n.toNat = s.n.toNat + 1 ∧
          t = { s with buf := t.buf, n := t.n, len := t.len, responses := s.responses ++ [0x01#8] }) ∧
        (s.n.toNat = 63 →
          t.n.toNat = 0 ∧ t.h = compressBlock s.h t.buf ∧
          t = { s with buf := t.buf, n := t.n, len := t.len, h := t.h, v := t.v, w := t.w,
                       responses := s.responses ++ [0x01#8] })) ∧
    (s.phase = .absorb → s.len.toNat = 2 ^ 61 - 1 →
      ∃ t, exec (.data b) s = .next t ∧ FaultTaken .length s t ∧ status t = 0x0F#8) ∧
    ((s.phase = .idle ∨ s.phase = .done) →
      ∃ t, exec (.data b) s = .next t ∧ FaultTaken .sequence s t ∧ status t = 0x0B#8)

/-- R94: FINISH in ABSORB is its micro-operations PAD, SER, DISCARD, then phase DONE and the response 0x02; outside
ABSORB it raises SEQUENCE. -/
def Obligations.FinishRunsPadSerDiscard : Prop :=
  ∀ s : State, StatusOk s →
    (s.phase = .absorb →
      ∃ u v, runAll (padSeq s.n) s = .next u ∧ runAll [.ser, .discard] u = .next v ∧
        v.responses = s.responses ∧ v.events = s.events ∧ v.cmdPort = s.cmdPort ∧
        v.digest = wordsToBytes u.h ∧
        exec .finish s = .next { v with phase := .done, responses := s.responses ++ [0x02#8] }) ∧
    ((s.phase = .idle ∨ s.phase = .done) →
      ∃ t, exec .finish s = .next t ∧ FaultTaken .sequence s t ∧ status t = 0x0B#8)

/-- R95: RDDG in DONE responds the digest byte and changes no state; in IDLE and ABSORB it raises SEQUENCE. -/
def Obligations.RddgReadsDigest : Prop :=
  ∀ (s : State) (i : BitVec 5),
    (s.phase = .done →
      ∃ b, exec (.rddg i) s = .next { s with responses := s.responses ++ [b] } ∧
        s.digest[i.toNat]? = some b) ∧
    ((s.phase = .idle ∨ s.phase = .absorb) →
      ∃ t, exec (.rddg i) s = .next t ∧ FaultTaken .sequence s t ∧ status t = 0x0B#8)

/-- R96 with R168 and R169: RDHX in DONE responds the ASCII code of the lowercase hex digit of one nibble of
DIGEST[idx6 >> 1], the high one for an even index, and changes no state; in IDLE and ABSORB it raises SEQUENCE. -/
def Obligations.RdhxReadsHexCharacter : Prop :=
  ∀ (s : State) (j : BitVec 6),
    (s.phase = .done →
      ∃ (b d : Byte) (nibble : Nat),
        exec (.rdhx j) s = .next { s with responses := s.responses ++ [b] } ∧
        s.digest[j.toNat / 2]? = some d ∧
        nibble = (if j.toNat % 2 = 0 then d.toNat / 16 else d.toNat % 16) ∧
        b.toNat = if nibble < 10 then 0x30 + nibble else 0x57 + nibble) ∧
    ((s.phase = .idle ∨ s.phase = .absorb) →
      ∃ t, exec (.rdhx j) s = .next t ∧ FaultTaken .sequence s t ∧ status t = 0x0B#8)

/-- R99: STAT responds STATUS in every phase and changes no state. -/
def Obligations.StatReadsStatus : Prop :=
  ∀ s : State, exec .stat s = .next { s with responses := s.responses ++ [status s] }

/-- Reads have no side effects (20_memory.md R55): a read command that succeeds, given twice in a row, gives the
same byte twice and changes no state but the port. -/
def Obligations.ReadsAreRepeatable : Prop :=
  ∀ (s : State) c rest, (c = statWord ∨ (s.phase = .done ∧ IsRead c)) →
    s.events = .command c :: .command c :: rest →
    ∃ b, Host.Core.run Sys2Proof.core 2 s =
      .next { s with cmdPort := c, events := rest, responses := s.responses ++ [b, b] }

/-! ### The twelve micro-operations -/

/-- R160: INIT sets H to the initialisation constants and LEN and N to 0, and touches nothing else. -/
def Obligations.InitSetsHashState : Prop :=
  ∀ s : State, ∃ t, exec .init s = .next t ∧ t = { s with h := t.h, len := t.len, n := t.n } ∧
    t.len.toNat = 0 ∧ t.n.toNat = 0 ∧
    t.h = #v[0x6a09e667#32, 0xbb67ae85#32, 0x3c6ef372#32, 0xa54ff53a#32,
             0x510e527f#32, 0x9b05688c#32, 0x1f83d9ab#32, 0x5be0cd19#32]

/-- R111 for each micro-operation that stores a byte (PUSH, PADM, PADZ, PADL; the byte by R110, R114, R115, R116):
the byte goes to BUF[N] and N rises by one; where N = 63 the block is compressed into H and N returns to 0. Every
other byte of BUF and everything else is as before. LEN rises by one for PUSH and is unchanged otherwise; a PUSH at
LEN = 2^61 - 1, which is never issued, leaves LEN free (the model's choice, log 10). -/
def Obligations.PutStoresByte : Prop :=
  ∀ (i : Instr) (s : State) (b : Byte), storedByte i s = some b →
    ∃ t, exec i s = .next t ∧
      byteAt t.buf s.n = b ∧ (∀ j, j ≠ s.n → byteAt t.buf j = byteAt s.buf j) ∧
      (s.n.toNat < 63 → t.n.toNat = s.n.toNat + 1 ∧
        t = { s with buf := t.buf, n := t.n, len := t.len, fresh := t.fresh }) ∧
      (s.n.toNat = 63 → t.n.toNat = 0 ∧ t.h = compressBlock s.h t.buf ∧
        t = { s with buf := t.buf, n := t.n, len := t.len, fresh := t.fresh, h := t.h, v := t.v, w := t.w }) ∧
      (i ≠ .push → t.len = s.len) ∧
      (i = .push → s.len.toNat < 2 ^ 61 - 1 → t.len.toNat = s.len.toNat + 1)

/-- R127: LDW t puts the big-endian word of BUF[4t..4t+3] into W[t] and changes nothing else. -/
def Obligations.LdwLoadsBlockWord : Prop :=
  ∀ (t : BitVec 4) (s : State), ∃ u, exec (.ldw t) s = .next u ∧ u = { s with w := u.w } ∧
    (wordAt u.w (BitVec.ofNat 6 t.toNat)).toNat =
      2 ^ 24 * (byteAt s.buf (BitVec.ofNat 6 (4 * t.toNat))).toNat
        + 2 ^ 16 * (byteAt s.buf (BitVec.ofNat 6 (4 * t.toNat + 1))).toNat
        + 2 ^ 8 * (byteAt s.buf (BitVec.ofNat 6 (4 * t.toNat + 2))).toNat
        + (byteAt s.buf (BitVec.ofNat 6 (4 * t.toNat + 3))).toNat ∧
    ∀ j : BitVec 6, j.toNat ≠ t.toNat → wordAt u.w j = wordAt s.w j

/-- R128: EXP t, t = 16 to 63, puts the sum of the four terms modulo 2^32 into W[t] and changes nothing else. -/
def Obligations.ExpDerivesScheduleWord : Prop :=
  ∀ (t : BitVec 6) (s : State), 16 ≤ t.toNat → ∃ u, exec (.exp t) s = .next u ∧ u = { s with w := u.w } ∧
    (wordAt u.w t).toNat =
      ((smallSigma1 (wordAt s.w (BitVec.ofNat 6 (t.toNat - 2)))).toNat
        + (wordAt s.w (BitVec.ofNat 6 (t.toNat - 7))).toNat
        + (smallSigma0 (wordAt s.w (BitVec.ofNat 6 (t.toNat - 15)))).toNat
        + (wordAt s.w (BitVec.ofNat 6 (t.toNat - 16))).toNat) % 2 ^ 32 ∧
    ∀ j : BitVec 6, j ≠ t → wordAt u.w j = wordAt s.w j

/-- R144: LDV copies H into V and changes nothing else. -/
def Obligations.LdvLoadsWorkingRegisters : Prop :=
  ∀ s : State, ∃ t, exec .ldv s = .next t ∧ t = { s with v := t.v } ∧ ∀ i : Fin 8, t.v[i] = s.h[i]

/-- R145: RND t in exact arithmetic: T1 and T2 modulo 2^32, the new register file (T1 + T2, a, b, c, d + T1, e, f, g),
all from the old values, and nothing else changed. -/
def Obligations.RndIsOneRound : Prop :=
  ∀ (t : BitVec 6) (s : State), ∃ u, exec (.rnd t) s = .next u ∧ u = { s with v := u.v } ∧
    ∃ t1 t2 : Nat,
      t1 = (s.v[7].toNat + (bigSigma1 s.v[4]).toNat + (ch s.v[4] s.v[5] s.v[6]).toNat
              + (wordAt k t).toNat + (wordAt s.w t).toNat) % 2 ^ 32 ∧
      t2 = ((bigSigma0 s.v[0]).toNat + (maj s.v[0] s.v[1] s.v[2]).toNat) % 2 ^ 32 ∧
      u.v[0].toNat = (t1 + t2) % 2 ^ 32 ∧ u.v[1] = s.v[0] ∧ u.v[2] = s.v[1] ∧ u.v[3] = s.v[2] ∧
      u.v[4].toNat = (s.v[3].toNat + t1) % 2 ^ 32 ∧ u.v[5] = s.v[4] ∧ u.v[6] = s.v[5] ∧ u.v[7] = s.v[6]

/-- R161: ACC adds V into H, each word modulo 2^32, and changes nothing else. -/
def Obligations.AccAddsIntoHashState : Prop :=
  ∀ s : State, ∃ t, exec .acc s = .next t ∧ t = { s with h := t.h } ∧
    ∀ i : Fin 8, t.h[i].toNat = (s.h[i].toNat + s.v[i].toNat) % 2 ^ 32

/-- R162: SER writes the 32 bytes of H, big-endian, word 0 first, and changes nothing else. -/
def Obligations.SerWritesDigest : Prop :=
  ∀ s : State, ∃ t, exec .ser s = .next t ∧ t = { s with digest := t.digest } ∧
    ∀ (j : Nat) (hj : j < 32) (hw : j / 4 < 8),
      (t.digest[j]'hj).toNat = (s.h[j / 4]'hw).toNat / 2 ^ (24 - 8 * (j % 4)) % 256

/-- R163: DISCARD completes and writes H, V, W, BUF, N and LEN only; they hold no value after it. -/
def Obligations.DiscardLeavesTheRest : Prop :=
  ∀ s : State, ∃ t, exec .discard s = .next t ∧
    t = { s with h := t.h, v := t.v, w := t.w, buf := t.buf, n := t.n, len := t.len, fresh := t.fresh }

/-- No micro-operation can fault (60_exceptions.md section 1): each completes in every state, and none writes PHASE
or CAUSE, gives a response, or touches the port. -/
def Obligations.MicroOperationsNeverFault : Prop :=
  ∀ (i : Instr) (s : State), IsCommand i = false → i.WellFormed →
    ∃ t, exec i s = .next t ∧ t.phase = s.phase ∧ t.cause = s.cause ∧ t.responses = s.responses ∧
      t.events = s.events ∧ t.cmdPort = s.cmdPort

/-- START is INIT, and DATA is PUSH with its byte on the port (40_commands.md sections 2 and 3): running the
micro-operation gives the command's effect but for DIGEST, PHASE and the response. -/
def Obligations.StartAndDataAreTheirMicroOperations : Prop :=
  (∀ s : State, (s.phase = .idle ∨ s.phase = .done) →
    ∃ u t, runAll (commandSeq .start s) s = .next u ∧ exec .start s = .next t ∧
      u = { t with phase := s.phase, digest := s.digest, responses := s.responses, fresh := s.fresh }) ∧
  (∀ (s : State) (b : BitVec 8), s.phase = .absorb → s.len.toNat < 2 ^ 61 - 1 →
    ∃ u t, runAll (commandSeq (.data b) s) { s with cmdPort := 0x20#8 ++ b } = .next u ∧
      exec (.data b) s = .next t ∧ u = { t with cmdPort := 0x20#8 ++ b, responses := s.responses })

/-! ### The functions and the tables -/

/-- R126: the small sigmas, with the values the rule lists. -/
def Obligations.SmallSigmas : Prop :=
  (∀ x : Word, smallSigma0 x = x.rotateRight 7 ^^^ x.rotateRight 18 ^^^ (x >>> 3)) ∧
  (∀ x : Word, smallSigma1 x = x.rotateRight 17 ^^^ x.rotateRight 19 ^^^ (x >>> 10)) ∧
  [smallSigma0 0#32, smallSigma1 0#32, smallSigma0 0xFFFFFFFF#32, smallSigma1 0xFFFFFFFF#32,
   smallSigma0 0x80000000#32, smallSigma1 0x80000000#32, smallSigma0 1#32, smallSigma1 1#32,
   smallSigma0 0x61626380#32, smallSigma1 0x18#32] =
  [0#32, 0#32, 0x1FFFFFFF#32, 0x003FFFFF#32, 0x11002000#32, 0x00205000#32, 0x02004000#32, 0x0000A000#32,
   0x940E90EF#32, 0x000F0000#32]

/-- R141: the capital sigmas, with the values the rule lists. -/
def Obligations.BigSigmas : Prop :=
  (∀ x : Word, bigSigma0 x = x.rotateRight 2 ^^^ x.rotateRight 13 ^^^ x.rotateRight 22) ∧
  (∀ x : Word, bigSigma1 x = x.rotateRight 6 ^^^ x.rotateRight 11 ^^^ x.rotateRight 25) ∧
  [bigSigma0 0#32, bigSigma1 0#32, bigSigma0 0xFFFFFFFF#32, bigSigma1 0xFFFFFFFF#32,
   bigSigma0 0x80000000#32, bigSigma1 0x80000000#32, bigSigma0 1#32, bigSigma1 1#32,
   bigSigma0 0x6A09E667#32, bigSigma1 0x510E527F#32] =
  [0#32, 0#32, 0xFFFFFFFF#32, 0xFFFFFFFF#32, 0x20040200#32, 0x02100040#32, 0x40080400#32, 0x04200080#32,
   0xCE20B47E#32, 0x3587272B#32]

/-- R142: Ch chooses bit by bit and Maj is the majority bit by bit; `^` may be `|` in Ch, Maj is symmetric; the
values the rule lists. -/
def Obligations.ChooseAndMajority : Prop :=
  (∀ (x y z : Word) (i : Nat), i < 32 →
    (ch x y z).getLsbD i = (if x.getLsbD i = true then y.getLsbD i else z.getLsbD i) ∧
    (maj x y z).getLsbD i =
      decide (2 ≤ (x.getLsbD i).toNat + (y.getLsbD i).toNat + (z.getLsbD i).toNat)) ∧
  (∀ x y z : Word, ch x y z = (x &&& y) ||| (~~~x &&& z)) ∧
  (∀ x y z : Word, maj x y z = maj y x z ∧ maj x y z = maj x z y) ∧
  (∀ y z : Word, ch 0#32 y z = z ∧ ch 0xFFFFFFFF#32 y z = y) ∧ (∀ x z : Word, maj x x z = x) ∧
  ch 0xF0F0F0F0#32 0xFFFF0000#32 0x00FFFF00#32 = 0xF0FF0F00#32 ∧
  maj 0xF0F0F0F0#32 0xFFFF0000#32 0x00FFFF00#32 = 0xF0FFF000#32 ∧
  ch 0x510E527F#32 0x9B05688C#32 0x1F83D9AB#32 = 0x1F85C98C#32 ∧
  maj 0x6A09E667#32 0xBB67AE85#32 0x3C6EF372#32 = 0x3A6FE667#32 ∧
  ∃ x y z : Word, ch x y z ≠ ch y x z

/-- R143: K[t] is the first 32 bits of the fractional part of the cube root of the t-th prime, counting from 0:
the floor of the cube root of p · 2^96, modulo 2^32. -/
def Obligations.RoundConstantsAreCubeRoots : Prop :=
  ∀ t : Fin 64, ∃ q : Nat,
    q ^ 3 ≤ Nat.nth Nat.Prime t.val * 2 ^ 96 ∧ Nat.nth Nat.Prime t.val * 2 ^ 96 < (q + 1) ^ 3 ∧
    (k[t]).toNat = q % 2 ^ 32

/-- R23: IV[i] is the first 32 bits of the fractional part of the square root of the i-th prime, counting from 0:
the floor of the square root of p · 2^64, modulo 2^32. -/
def Obligations.InitialConstantsAreSquareRoots : Prop :=
  ∀ i : Fin 8, ∃ q : Nat,
    q ^ 2 ≤ Nat.nth Nat.Prime i.val * 2 ^ 64 ∧ Nat.nth Nat.Prime i.val * 2 ^ 64 < (q + 1) ^ 2 ∧
    (iv[i]).toNat = q % 2 ^ 32

/-- R169: the sixteen hex digits are their lowercase ASCII codes. -/
def Obligations.HexDigitsAreAscii : Prop :=
  (∀ x : BitVec 4, (hexdigit x).toNat = if x.toNat < 10 then 0x30 + x.toNat else 0x57 + x.toNat) ∧
  (List.range 16).map (fun x => (hexdigit (BitVec.ofNat 4 x)).toNat) =
    "0123456789abcdef".toList.map Char.toNat

/-- The hex view (44_accumulate_output.md, the hex helper): every character is one of the sixteen lowercase hex
digits, and the view loses nothing. -/
def Obligations.HexViewLosesNothing : Prop :=
  ∀ digest : Vector Byte 32,
    (∀ j : BitVec 6,
      (0x30 ≤ (hexView digest j).toNat ∧ (hexView digest j).toNat ≤ 0x39) ∨
      (0x61 ≤ (hexView digest j).toNat ∧ (hexView digest j).toNat ≤ 0x66)) ∧
    (∀ i : BitVec 5,
      digestAt digest i =
        unhex (hexView digest (BitVec.ofNat 6 (2 * i.toNat)))
          ++ unhex (hexView digest (BitVec.ofNat 6 (2 * i.toNat + 1))))

/-! ### Blocks, padding and the digest -/

/-- R112 with R149: the 130 micro-operations of COMPRESS, run one by one, map H and the block to the compression
function's value, leave the block's schedule in W, and do not write BUF, N, LEN, DIGEST, PHASE or CAUSE. -/
def Obligations.CompressSequenceIsBlockFunction : Prop :=
  compressSeq.length = 130 ∧
  ∀ s : State, ∃ t, runAll compressSeq s = .next t ∧
    t.h = compressBlock s.h s.buf ∧ t.w = schedule s.buf ∧ t = { s with h := t.h, v := t.v, w := t.w }

/-- R125 with R127 and R128: the schedule of a block is its sixteen big-endian words followed by the recurrence. -/
def Obligations.ScheduleMeetsRecurrence : Prop :=
  ∀ b : Vector Byte 64,
    (∀ t : BitVec 4, wordAt (schedule b) (BitVec.ofNat 6 t.toNat) =
      byteAt b (BitVec.ofNat 6 (4 * t.toNat)) ++ byteAt b (BitVec.ofNat 6 (4 * t.toNat + 1))
        ++ byteAt b (BitVec.ofNat 6 (4 * t.toNat + 2)) ++ byteAt b (BitVec.ofNat 6 (4 * t.toNat + 3))) ∧
    (∀ t : BitVec 6, 16 ≤ t.toNat → wordAt (schedule b) t =
      smallSigma1 (wordAt (schedule b) (BitVec.ofNat 6 (t.toNat - 2)))
        + wordAt (schedule b) (BitVec.ofNat 6 (t.toNat - 7))
        + smallSigma0 (wordAt (schedule b) (BitVec.ofNat 6 (t.toNat - 15)))
        + wordAt (schedule b) (BitVec.ofNat 6 (t.toNat - 16)))

/-- R113: after PADM and the (55 - n) mod 64 PADZ the fill index is 56, each PADL i runs at 56 + i, and N is 0 after
the last; PAD does not change LEN; the number of appended bytes makes the length a multiple of 64. -/
def Obligations.PaddingFillsWholeBlocks : Prop :=
  (∀ s : State, ∃ u,
    runAll (.padm :: List.replicate (zeroBytes s.n.toNat) .padz) s = .next u ∧
    u.n = 56#6 ∧ u.len = s.len ∧
    (∀ i : BitVec 3, ∃ t,
      runAll ((List.range i.toNat).map fun j => .padl (BitVec.ofNat 3 j)) u = .next t ∧
      t.n.toNat = 56 + i.toNat ∧ t.len = s.len) ∧
    ∃ t, runAll (padSeq s.n) s = .next t ∧ t.n = 0#6 ∧ t.len = s.len) ∧
  (∀ length : Nat, (length + 9 + zeroBytes length) % 64 = 0)

/-- R117: FINISH runs COMPRESS once for N up to 55 and twice from 56; the padded message of L bytes has
(L + 8) div 64 + 1 blocks. -/
def Obligations.OneBlockOrTwo : Prop :=
  (∀ s : State, (effectIssues .finish s).count .acc = if s.n.toNat ≤ 55 then 1 else 2) ∧
  (∀ m : List Byte, (padMessage m).length = 64 * ((m.length + 8) / 64 + 1))

/-- START in IDLE or DONE leaves a call in progress on the empty message (R14, R40, R92). -/
def Obligations.StartAbsorbsEmptyMessage : Prop :=
  ∀ s : State, StatusOk s → (s.phase = .idle ∨ s.phase = .done) →
    ∃ t, exec .start s = .next t ∧ Absorbing t []

/-- DATA in a call in progress appends its byte to the message (R40, 20_memory.md R63), up to 2^61 - 1 bytes. -/
def Obligations.DataExtendsMessage : Prop :=
  ∀ (s : State) (m : List Byte) (b : Byte), Absorbing s m → m.length < 2 ^ 61 - 1 →
    ∃ t, exec (.data b) s = .next t ∧ Absorbing t (m ++ [b]) ∧ t.responses = s.responses ++ [0x01#8]

/-- FINISH in a call in progress on a message latches the digest of exactly that message, as the formula of R164
gives it, and answers 0x02. -/
def Obligations.FinishLatchesSha256 : Prop :=
  ∀ (s : State) (m : List Byte), Absorbing s m →
    ∃ t, exec .finish s = .next t ∧ t.phase = .done ∧ t.cause = .none ∧ t.digest = sha256 m ∧
      t.responses = s.responses ++ [0x02#8] ∧ t.events = s.events

/-- A well-formed call (R97, R186): START, one DATA per message byte in order, FINISH, then any reads, with STAT
anywhere among them, from IDLE or DONE. It raises no fault, its reads answer the bytes and the hex characters of
SHA-256 of the message, and the result depends on the message alone. -/
def Obligations.WellFormedCallAnswersDigest : Prop :=
  ∀ (s : State) (m : List Byte) (words reads : List (BitVec 16)) (rest : List Event),
    StatusOk s → (s.phase = .idle ∨ s.phase = .done) → m.length < 2 ^ 61 → (∀ c ∈ reads, IsRead c) →
    words.filter (fun c => c ≠ statWord) = callWords m ++ reads →
    s.events = words.map .command ++ rest →
    ∃ (t : State) (rs : List Byte),
      Host.Core.run Sys2Proof.core words.length s = .next t ∧
      t.phase = .done ∧ t.cause = .none ∧ t.digest = sha256 m ∧ t.events = rest ∧
      t.responses = s.responses ++ rs ∧ rs.length = words.length ∧
      ∀ p ∈ words.zip rs, p.1 ≠ statWord → p.2 = callResponse m p.1

/-! ### What no result depends on -/

/-- No rule reads a location that holds no value (R36, R40): two states that agree wherever R40 defines a value
answer every command word with the same byte and agree again afterwards; and likewise after reset. -/
def Obligations.UndefinedLocationsNeverMatter : Prop :=
  (∀ (s t : State) c rest rest', AgreeWhereDefined s t →
    s.events = .command c :: rest → t.events = .command c :: rest' →
    ∃ s' t' b, step s = .next s' ∧ step t = .next t' ∧ AgreeWhereDefined s' t' ∧
      s'.responses = s.responses ++ [b] ∧ t'.responses = t.responses ++ [b]) ∧
  (∀ (s t : State) rest rest', s.events = .reset :: rest → t.events = .reset :: rest' →
    ∃ s' t', step s = .next s' ∧ step t = .next t' ∧ AgreeWhereDefined s' t')

/-- No command returns a bit of H, V, W, BUF, N or LEN (R39): the response to any command word is fixed by PHASE,
CAUSE, in DONE by DIGEST, and in ABSORB by whether LEN is 2^61 - 1. -/
def Obligations.InternalStateNeverExposed : Prop :=
  ∀ (s t : State) c rest rest', s.phase = t.phase → s.cause = t.cause →
    (s.phase = .done → s.digest = t.digest) →
    (s.phase = .absorb → (s.len = maxLen ↔ t.len = maxLen)) →
    s.events = .command c :: rest → t.events = .command c :: rest' →
    ∃ s' t' b, step s = .next s' ∧ step t = .next t' ∧
      s'.responses = s.responses ++ [b] ∧ t'.responses = t.responses ++ [b]

/-- R101: the micro-operations each command issues and how many. Every word in FAULT: none. A command that faults,
an illegal word among them: DISCARD alone, and outside FAULT the step leads to FAULT exactly where DISCARD alone is
issued. START: INIT. DATA: PUSH, and COMPRESS where N = 63. FINISH: PADM, k PADZ, 8 PADL, SER, DISCARD, with the 130
of COMPRESS once for N up to 55 and twice from 56. The reads and STAT: none. At most 334 (70 R211). -/
def Obligations.MicroOperationCounts : Prop :=
  (∀ (s : State) c, s.phase = .fault → issuedByWord c s = []) ∧
  (∀ (s : State) c, s.phase ≠ .fault → isInstr (decodeCommand c) = false → issuedByWord c s = [.discard]) ∧
  (∀ (s : State) c i, decodeCommand c = .ok i → issuedByWord c s = issued i s) ∧
  (∀ (s : State) c rest, s.events = .command c :: rest → s.phase ≠ .fault →
    ∃ t, step s = .next t ∧ (t.phase = .fault ↔ issuedByWord c s = [.discard])) ∧
  (∀ (s : State) i, s.phase ≠ .fault → commandFaults i s = true → issued i s = [.discard]) ∧
  (∀ s : State, s.phase = .idle ∨ s.phase = .done → issued .start s = [.init]) ∧
  (∀ (s : State) b, s.phase = .absorb → s.len ≠ maxLen →
    issued (.data b) s = .push :: (if s.n.toNat < 63 then [] else compressSeq) ∧
    (issued (.data b) s).length = if s.n.toNat < 63 then 1 else 131) ∧
  (∀ s : State, s.phase = .absorb →
    (issued .finish s).filter (fun j => j ∉ compressSeq) =
      .padm :: List.replicate (zeroBytes s.n.toNat) .padz ++
        [.padl 0#3, .padl 1#3, .padl 2#3, .padl 3#3, .padl 4#3, .padl 5#3, .padl 6#3, .padl 7#3, .ser, .discard] ∧
    (issued .finish s).count .acc = (if s.n.toNat ≤ 55 then 1 else 2) ∧
    (issued .finish s).length = zeroBytes s.n.toNat + if s.n.toNat ≤ 55 then 141 else 271) ∧
  (∀ (s : State) x y, s.phase = .done → issued (.rddg x) s = [] ∧ issued (.rdhx y) s = []) ∧
  (∀ s : State, issued .stat s = []) ∧
  (∀ (s : State) c, (issuedByWord c s).length ≤ 334)

/-- Other orders that keep the data dependencies (R65) compute the same: EXP t passes any RND of another index and
LDV, and LDW passes LDV. -/
def Obligations.IndependentMicroOperationsCommute : Prop :=
  ∀ (s : State) (t u : BitVec 6) (x : BitVec 4), 16 ≤ t.toNat →
    (t ≠ u → runAll [.exp t, .rnd u] s = runAll [.rnd u, .exp t] s) ∧
    runAll [.exp t, .ldv] s = runAll [.ldv, .exp t] s ∧
    runAll [.ldw x, .ldv] s = runAll [.ldv, .ldw x] s ∧
    ∃ v, runAll [.exp t, .rnd u] s = .next v ∧ v = { s with v := v.v, w := v.w }

/-! ### The assembler -/

/-- The assembler never produces an illegal word (R80), but where a line asks for one with `.word`. -/
def Obligations.AssemblerProducesLegalWords : Prop :=
  ∀ (line : List Char) (ws : List InstrWord), assembleLine line = some ws →
    (tokensFrom [] (skipBlanks line)).head? = some ".word".toList ∨
    ∀ w ∈ ws, ∃ (c : BitVec 16) (i : Instr), w = .command c ∧ decodeCommand c = .ok i

/-- `HASH "text"` expands to START, one DATA per character with its ASCII code, FINISH (R81). -/
def Obligations.AssemblerExpandsHash : Prop :=
  ∀ text : List Char, (∀ x ∈ text, 0x20 ≤ x.toNat ∧ x.toNat ≤ 0x7E ∧ x.toNat ≠ 0x22) →
    assembleLine ("HASH \"".toList ++ text ++ "\"".toList) =
      some ((callWords (text.map fun x => BitVec.ofNat 8 x.toNat)).map .command)
end

