-- ==== Sys2Proof/Laws/Arrays.lean ====
section
/-! SUPPORT. Reading after writing in the arrays, equality of arrays from equality at every index, and the
index lists of the spec's loops. -/

namespace Sys2Proof.Machine

@[simp] theorem wordAt_setWord_self (w : Vector Word 64) (t : BitVec 6) (x : Word) :
    wordAt (setWord w t x) t = x := by
  simp [wordAt, setWord]

theorem wordAt_setWord_ne (w : Vector Word 64) {t u : BitVec 6} (x : Word) (h : u ≠ t) :
    wordAt (setWord w t x) u = wordAt w u := by
  have hn : t.toNat ≠ u.toNat := fun he => h (BitVec.eq_of_toNat_eq he.symm)
  simp [wordAt, setWord, hn]

@[simp] theorem byteAt_setByte_self (b : Vector Byte 64) (i : BitVec 6) (x : Byte) :
    byteAt (setByte b i x) i = x := by
  simp [byteAt, setByte]

theorem byteAt_setByte_ne (b : Vector Byte 64) {i j : BitVec 6} (x : Byte) (h : j ≠ i) :
    byteAt (setByte b i x) j = byteAt b j := by
  have hn : i.toNat ≠ j.toNat := fun he => h (BitVec.eq_of_toNat_eq he.symm)
  simp [byteAt, setByte, hn]

theorem words_ext {w w' : Vector Word 64} (h : ∀ t : BitVec 6, wordAt w t = wordAt w' t) : w = w' := by
  ext i hi : 1
  have := h (BitVec.ofNat 6 i)
  simpa [wordAt, Nat.mod_eq_of_lt hi] using this

theorem bytes_ext {b b' : Vector Byte 64} (h : ∀ i : BitVec 6, byteAt b i = byteAt b' i) : b = b' := by
  ext i hi : 1
  have := h (BitVec.ofNat 6 i)
  simpa [byteAt, Nat.mod_eq_of_lt hi] using this

/-- `BUF[i]` of block `j` of a byte string (spec/41_padding.md R118). -/
theorem byteAt_blockOf (p : List Byte) (j : Nat) (i : BitVec 6) :
    byteAt (blockOf p j) i = p.getD (64 * j + i.toNat) 0 := by
  simp [byteAt, blockOf]

theorem indices_zero (width lo : Nat) : indices width lo 0 = [] := rfl

theorem indices_succ (width lo count : Nat) :
    indices width lo (count + 1) = BitVec.ofNat width lo :: indices width (lo + 1) count := rfl

end Sys2Proof.Machine
end

