-- ==== Sys2Proof/Laws/State.lean ====
section
/-! SUPPORT. What each named update does to each field of State, one lemma a field, so that no later proof
unfolds a record update. Where a location holds no value after an update there is no lemma about it. -/

namespace Sys2Proof.Machine

/-! ### respond -/

@[simp] theorem respond_phase (b : Byte) (s : State) : (respond b s).phase = s.phase := rfl
@[simp] theorem respond_cause (b : Byte) (s : State) : (respond b s).cause = s.cause := rfl
@[simp] theorem respond_h (b : Byte) (s : State) : (respond b s).h = s.h := rfl
@[simp] theorem respond_v (b : Byte) (s : State) : (respond b s).v = s.v := rfl
@[simp] theorem respond_w (b : Byte) (s : State) : (respond b s).w = s.w := rfl
@[simp] theorem respond_buf (b : Byte) (s : State) : (respond b s).buf = s.buf := rfl
@[simp] theorem respond_n (b : Byte) (s : State) : (respond b s).n = s.n := rfl
@[simp] theorem respond_len (b : Byte) (s : State) : (respond b s).len = s.len := rfl
@[simp] theorem respond_digest (b : Byte) (s : State) : (respond b s).digest = s.digest := rfl
@[simp] theorem respond_cmdPort (b : Byte) (s : State) : (respond b s).cmdPort = s.cmdPort := rfl
@[simp] theorem respond_responses (b : Byte) (s : State) : (respond b s).responses = s.responses ++ [b] := rfl
@[simp] theorem respond_events (b : Byte) (s : State) : (respond b s).events = s.events := rfl

/-! ### respondStatus -/

@[simp] theorem respondStatus_phase (s : State) : (respondStatus s).phase = s.phase := rfl
@[simp] theorem respondStatus_cause (s : State) : (respondStatus s).cause = s.cause := rfl
@[simp] theorem respondStatus_h (s : State) : (respondStatus s).h = s.h := rfl
@[simp] theorem respondStatus_v (s : State) : (respondStatus s).v = s.v := rfl
@[simp] theorem respondStatus_w (s : State) : (respondStatus s).w = s.w := rfl
@[simp] theorem respondStatus_buf (s : State) : (respondStatus s).buf = s.buf := rfl
@[simp] theorem respondStatus_n (s : State) : (respondStatus s).n = s.n := rfl
@[simp] theorem respondStatus_len (s : State) : (respondStatus s).len = s.len := rfl
@[simp] theorem respondStatus_digest (s : State) : (respondStatus s).digest = s.digest := rfl
@[simp] theorem respondStatus_cmdPort (s : State) : (respondStatus s).cmdPort = s.cmdPort := rfl
@[simp] theorem respondStatus_responses (s : State) : (respondStatus s).responses = s.responses ++ [status s] := rfl
@[simp] theorem respondStatus_events (s : State) : (respondStatus s).events = s.events := rfl

/-! ### undefDigest -/

@[simp] theorem undefDigest_phase (s : State) : (undefDigest s).phase = s.phase := rfl
@[simp] theorem undefDigest_cause (s : State) : (undefDigest s).cause = s.cause := rfl
@[simp] theorem undefDigest_h (s : State) : (undefDigest s).h = s.h := rfl
@[simp] theorem undefDigest_v (s : State) : (undefDigest s).v = s.v := rfl
@[simp] theorem undefDigest_w (s : State) : (undefDigest s).w = s.w := rfl
@[simp] theorem undefDigest_buf (s : State) : (undefDigest s).buf = s.buf := rfl
@[simp] theorem undefDigest_n (s : State) : (undefDigest s).n = s.n := rfl
@[simp] theorem undefDigest_len (s : State) : (undefDigest s).len = s.len := rfl
@[simp] theorem undefDigest_cmdPort (s : State) : (undefDigest s).cmdPort = s.cmdPort := rfl
@[simp] theorem undefDigest_responses (s : State) : (undefDigest s).responses = s.responses := rfl
@[simp] theorem undefDigest_events (s : State) : (undefDigest s).events = s.events := rfl

/-! ### discardState -/

@[simp] theorem discardState_phase (s : State) : (discardState s).phase = s.phase := rfl
@[simp] theorem discardState_cause (s : State) : (discardState s).cause = s.cause := rfl
@[simp] theorem discardState_digest (s : State) : (discardState s).digest = s.digest := rfl
@[simp] theorem discardState_cmdPort (s : State) : (discardState s).cmdPort = s.cmdPort := rfl
@[simp] theorem discardState_responses (s : State) : (discardState s).responses = s.responses := rfl
@[simp] theorem discardState_events (s : State) : (discardState s).events = s.events := rfl

/-! ### hostReset -/

@[simp] theorem hostReset_phase (s : State) : (hostReset s).phase = .idle := rfl
@[simp] theorem hostReset_cause (s : State) : (hostReset s).cause = .none := rfl
@[simp] theorem hostReset_cmdPort (s : State) : (hostReset s).cmdPort = s.cmdPort := rfl
@[simp] theorem hostReset_responses (s : State) : (hostReset s).responses = s.responses := rfl
@[simp] theorem hostReset_events (s : State) : (hostReset s).events = s.events := rfl

/-! ### raiseFault -/

@[simp] theorem raiseFault_phase (c : Cause) (s : State) : (raiseFault c s).phase = .fault := rfl
@[simp] theorem raiseFault_cause (c : Cause) (s : State) : (raiseFault c s).cause = c := rfl
@[simp] theorem raiseFault_cmdPort (c : Cause) (s : State) : (raiseFault c s).cmdPort = s.cmdPort := rfl
@[simp] theorem raiseFault_responses (c : Cause) (s : State) : (raiseFault c s).responses = s.responses ++ [0b000#3 ++ c.code ++ Phase.fault.code] := rfl
@[simp] theorem raiseFault_events (c : Cause) (s : State) : (raiseFault c s).events = s.events := rfl

/-! ### initState -/

@[simp] theorem initState_phase (s : State) : (initState s).phase = s.phase := rfl
@[simp] theorem initState_cause (s : State) : (initState s).cause = s.cause := rfl
@[simp] theorem initState_h (s : State) : (initState s).h = iv := rfl
@[simp] theorem initState_v (s : State) : (initState s).v = s.v := rfl
@[simp] theorem initState_w (s : State) : (initState s).w = s.w := rfl
@[simp] theorem initState_buf (s : State) : (initState s).buf = s.buf := rfl
@[simp] theorem initState_n (s : State) : (initState s).n = 0 := rfl
@[simp] theorem initState_len (s : State) : (initState s).len = 0 := rfl
@[simp] theorem initState_digest (s : State) : (initState s).digest = s.digest := rfl
@[simp] theorem initState_cmdPort (s : State) : (initState s).cmdPort = s.cmdPort := rfl
@[simp] theorem initState_responses (s : State) : (initState s).responses = s.responses := rfl
@[simp] theorem initState_events (s : State) : (initState s).events = s.events := rfl

/-! ### loadScheduleWord -/

@[simp] theorem loadScheduleWord_phase (t : BitVec 4) (s : State) : (loadScheduleWord t s).phase = s.phase := rfl
@[simp] theorem loadScheduleWord_cause (t : BitVec 4) (s : State) : (loadScheduleWord t s).cause = s.cause := rfl
@[simp] theorem loadScheduleWord_h (t : BitVec 4) (s : State) : (loadScheduleWord t s).h = s.h := rfl
@[simp] theorem loadScheduleWord_v (t : BitVec 4) (s : State) : (loadScheduleWord t s).v = s.v := rfl
@[simp] theorem loadScheduleWord_w (t : BitVec 4) (s : State) : (loadScheduleWord t s).w = setWord s.w (0#2 ++ t) (blockWord s.buf t) := rfl
@[simp] theorem loadScheduleWord_buf (t : BitVec 4) (s : State) : (loadScheduleWord t s).buf = s.buf := rfl
@[simp] theorem loadScheduleWord_n (t : BitVec 4) (s : State) : (loadScheduleWord t s).n = s.n := rfl
@[simp] theorem loadScheduleWord_len (t : BitVec 4) (s : State) : (loadScheduleWord t s).len = s.len := rfl
@[simp] theorem loadScheduleWord_digest (t : BitVec 4) (s : State) : (loadScheduleWord t s).digest = s.digest := rfl
@[simp] theorem loadScheduleWord_cmdPort (t : BitVec 4) (s : State) : (loadScheduleWord t s).cmdPort = s.cmdPort := rfl
@[simp] theorem loadScheduleWord_responses (t : BitVec 4) (s : State) : (loadScheduleWord t s).responses = s.responses := rfl
@[simp] theorem loadScheduleWord_events (t : BitVec 4) (s : State) : (loadScheduleWord t s).events = s.events := rfl

/-! ### expandScheduleWord -/

@[simp] theorem expandScheduleWord_phase (t : BitVec 6) (s : State) : (expandScheduleWord t s).phase = s.phase := rfl
@[simp] theorem expandScheduleWord_cause (t : BitVec 6) (s : State) : (expandScheduleWord t s).cause = s.cause := rfl
@[simp] theorem expandScheduleWord_h (t : BitVec 6) (s : State) : (expandScheduleWord t s).h = s.h := rfl
@[simp] theorem expandScheduleWord_v (t : BitVec 6) (s : State) : (expandScheduleWord t s).v = s.v := rfl
@[simp] theorem expandScheduleWord_w (t : BitVec 6) (s : State) : (expandScheduleWord t s).w = setWord s.w t (expandWord s.w t) := rfl
@[simp] theorem expandScheduleWord_buf (t : BitVec 6) (s : State) : (expandScheduleWord t s).buf = s.buf := rfl
@[simp] theorem expandScheduleWord_n (t : BitVec 6) (s : State) : (expandScheduleWord t s).n = s.n := rfl
@[simp] theorem expandScheduleWord_len (t : BitVec 6) (s : State) : (expandScheduleWord t s).len = s.len := rfl
@[simp] theorem expandScheduleWord_digest (t : BitVec 6) (s : State) : (expandScheduleWord t s).digest = s.digest := rfl
@[simp] theorem expandScheduleWord_cmdPort (t : BitVec 6) (s : State) : (expandScheduleWord t s).cmdPort = s.cmdPort := rfl
@[simp] theorem expandScheduleWord_responses (t : BitVec 6) (s : State) : (expandScheduleWord t s).responses = s.responses := rfl
@[simp] theorem expandScheduleWord_events (t : BitVec 6) (s : State) : (expandScheduleWord t s).events = s.events := rfl

/-! ### loadWorking -/

@[simp] theorem loadWorking_phase (s : State) : (loadWorking s).phase = s.phase := rfl
@[simp] theorem loadWorking_cause (s : State) : (loadWorking s).cause = s.cause := rfl
@[simp] theorem loadWorking_h (s : State) : (loadWorking s).h = s.h := rfl
@[simp] theorem loadWorking_v (s : State) : (loadWorking s).v = s.h := rfl
@[simp] theorem loadWorking_w (s : State) : (loadWorking s).w = s.w := rfl
@[simp] theorem loadWorking_buf (s : State) : (loadWorking s).buf = s.buf := rfl
@[simp] theorem loadWorking_n (s : State) : (loadWorking s).n = s.n := rfl
@[simp] theorem loadWorking_len (s : State) : (loadWorking s).len = s.len := rfl
@[simp] theorem loadWorking_digest (s : State) : (loadWorking s).digest = s.digest := rfl
@[simp] theorem loadWorking_cmdPort (s : State) : (loadWorking s).cmdPort = s.cmdPort := rfl
@[simp] theorem loadWorking_responses (s : State) : (loadWorking s).responses = s.responses := rfl
@[simp] theorem loadWorking_events (s : State) : (loadWorking s).events = s.events := rfl

/-! ### roundStep -/

@[simp] theorem roundStep_phase (t : BitVec 6) (s : State) : (roundStep t s).phase = s.phase := rfl
@[simp] theorem roundStep_cause (t : BitVec 6) (s : State) : (roundStep t s).cause = s.cause := rfl
@[simp] theorem roundStep_h (t : BitVec 6) (s : State) : (roundStep t s).h = s.h := rfl
@[simp] theorem roundStep_v (t : BitVec 6) (s : State) : (roundStep t s).v = roundRegs s.v (wordAt k t) (wordAt s.w t) := rfl
@[simp] theorem roundStep_w (t : BitVec 6) (s : State) : (roundStep t s).w = s.w := rfl
@[simp] theorem roundStep_buf (t : BitVec 6) (s : State) : (roundStep t s).buf = s.buf := rfl
@[simp] theorem roundStep_n (t : BitVec 6) (s : State) : (roundStep t s).n = s.n := rfl
@[simp] theorem roundStep_len (t : BitVec 6) (s : State) : (roundStep t s).len = s.len := rfl
@[simp] theorem roundStep_digest (t : BitVec 6) (s : State) : (roundStep t s).digest = s.digest := rfl
@[simp] theorem roundStep_cmdPort (t : BitVec 6) (s : State) : (roundStep t s).cmdPort = s.cmdPort := rfl
@[simp] theorem roundStep_responses (t : BitVec 6) (s : State) : (roundStep t s).responses = s.responses := rfl
@[simp] theorem roundStep_events (t : BitVec 6) (s : State) : (roundStep t s).events = s.events := rfl

/-! ### accumulate -/

@[simp] theorem accumulate_phase (s : State) : (accumulate s).phase = s.phase := rfl
@[simp] theorem accumulate_cause (s : State) : (accumulate s).cause = s.cause := rfl
@[simp] theorem accumulate_h (s : State) : (accumulate s).h = addWords s.h s.v := rfl
@[simp] theorem accumulate_v (s : State) : (accumulate s).v = s.v := rfl
@[simp] theorem accumulate_w (s : State) : (accumulate s).w = s.w := rfl
@[simp] theorem accumulate_buf (s : State) : (accumulate s).buf = s.buf := rfl
@[simp] theorem accumulate_n (s : State) : (accumulate s).n = s.n := rfl
@[simp] theorem accumulate_len (s : State) : (accumulate s).len = s.len := rfl
@[simp] theorem accumulate_digest (s : State) : (accumulate s).digest = s.digest := rfl
@[simp] theorem accumulate_cmdPort (s : State) : (accumulate s).cmdPort = s.cmdPort := rfl
@[simp] theorem accumulate_responses (s : State) : (accumulate s).responses = s.responses := rfl
@[simp] theorem accumulate_events (s : State) : (accumulate s).events = s.events := rfl

/-! ### serialise -/

@[simp] theorem serialise_phase (s : State) : (serialise s).phase = s.phase := rfl
@[simp] theorem serialise_cause (s : State) : (serialise s).cause = s.cause := rfl
@[simp] theorem serialise_h (s : State) : (serialise s).h = s.h := rfl
@[simp] theorem serialise_v (s : State) : (serialise s).v = s.v := rfl
@[simp] theorem serialise_w (s : State) : (serialise s).w = s.w := rfl
@[simp] theorem serialise_buf (s : State) : (serialise s).buf = s.buf := rfl
@[simp] theorem serialise_n (s : State) : (serialise s).n = s.n := rfl
@[simp] theorem serialise_len (s : State) : (serialise s).len = s.len := rfl
@[simp] theorem serialise_digest (s : State) : (serialise s).digest = wordsToBytes s.h := rfl
@[simp] theorem serialise_cmdPort (s : State) : (serialise s).cmdPort = s.cmdPort := rfl
@[simp] theorem serialise_responses (s : State) : (serialise s).responses = s.responses := rfl
@[simp] theorem serialise_events (s : State) : (serialise s).events = s.events := rfl

/-! ### STATUS after an update -/

@[simp] theorem status_respond (b : Byte) (s : State) : status (respond b s) = status s := rfl
@[simp] theorem status_respondStatus (s : State) : status (respondStatus s) = status s := rfl
@[simp] theorem status_undefDigest (s : State) : status (undefDigest s) = status s := rfl
@[simp] theorem status_discardState (s : State) : status (discardState s) = status s := rfl
@[simp] theorem status_hostReset (s : State) : status (hostReset s) = 0x00#8 := by
  simp [status, Phase.code, Cause.code]
@[simp] theorem status_raiseFault (c : Cause) (s : State) :
    status (raiseFault c s) = 0b000#3 ++ c.code ++ Phase.fault.code := rfl

/-- STATUS depends on PHASE and CAUSE alone (spec/10_state.md R31). -/
theorem status_congr {s t : State} (hp : s.phase = t.phase) (hc : s.cause = t.cause) :
    status s = status t := by
  simp [status, hp, hc]

/-! ### The gate of a command (spec/40_commands.md R90) -/

theorem gate_fault {legal : Phase → Bool} {effect : State → State} {s : State} (hp : s.phase = .fault) :
    gate legal effect s = respondStatus s := by
  simp [gate, hp]

theorem gate_legal {legal : Phase → Bool} {effect : State → State} {s : State} (hp : s.phase ≠ .fault)
    (hl : legal s.phase = true) : gate legal effect s = effect s := by
  simp [gate, hp, hl]

theorem gate_sequence {legal : Phase → Bool} {effect : State → State} {s : State} (hp : s.phase ≠ .fault)
    (hl : legal s.phase = false) : gate legal effect s = raiseFault .sequence s := by
  simp [gate, hp, hl]

/-- All a gated command can do: it is ignored, it has its effect, or it raises SEQUENCE. -/
theorem gate_cases (legal : Phase → Bool) (effect : State → State) (s : State) :
    (s.phase = .fault ∧ gate legal effect s = respondStatus s) ∨
    (s.phase ≠ .fault ∧ legal s.phase = true ∧ gate legal effect s = effect s) ∨
    (s.phase ≠ .fault ∧ legal s.phase = false ∧ gate legal effect s = raiseFault .sequence s) := by
  by_cases hp : s.phase = .fault
  · exact .inl ⟨hp, gate_fault hp⟩
  · cases hl : legal s.phase
    · exact .inr (.inr ⟨hp, rfl, gate_sequence hp hl⟩)
    · exact .inr (.inl ⟨hp, rfl, gate_legal hp hl⟩)

end Sys2Proof.Machine
end

