-- ==== Sys2Proof/Laws/Compress.lean ====
section
/-! SUPPORT. What COMPRESS does (spec/41_padding.md R112): the new H is the compression function of H and the
block (43_compression.md R149), W is the schedule of the block whatever it held before, and nothing else but V
changes. -/

namespace Sys2Proof.Machine

/-- Two schedules hold the same words below index `m`. -/
def SameBelow (m : Nat) (w w' : Vector Word 64) : Prop :=
  ∀ t : BitVec 6, t.toNat < m → wordAt w t = wordAt w' t

theorem SameBelow.set {m : Nat} {w w' : Vector Word 64} (h : SameBelow m w w') {t : BitVec 6} {x y : Word}
    (ht : t.toNat = m) (hxy : x = y) : SameBelow (m + 1) (setWord w t x) (setWord w' t y) := by
  intro u hu
  by_cases hut : u = t
  · subst hut; simp [hxy]
  · rw [wordAt_setWord_ne _ _ hut, wordAt_setWord_ne _ _ hut]
    have : u.toNat ≠ t.toNat := fun he => hut (BitVec.eq_of_toNat_eq he)
    exact h u (by omega)

/-- The recurrence reads only words below its own index (R128). -/
theorem expandWord_sameBelow {m : Nat} {w w' : Vector Word 64} (h : SameBelow m w w') {t : BitVec 6}
    (ht : t.toNat = m) (h16 : 16 ≤ m) : expandWord w t = expandWord w' t := by
  have hlt := t.isLt
  have h2 : (t - 2#6).toNat < m := by simp [BitVec.toNat_sub]; omega
  have h7 : (t - 7#6).toNat < m := by simp [BitVec.toNat_sub]; omega
  have h15 : (t - 15#6).toNat < m := by simp [BitVec.toNat_sub]; omega
  have h16' : (t - 16#6).toNat < m := by simp [BitVec.toNat_sub]; omega
  simp only [expandWord, h _ h2, h _ h7, h _ h15, h _ h16']

/-- The sixteen loads make two schedules agree below 16, whatever they held before. -/
theorem loads_sameBelow (b : Vector Byte 64) (count : Nat) : ∀ (lo : Nat) (w w' : Vector Word 64),
    lo + count ≤ 16 → SameBelow lo w w' →
    SameBelow (lo + count)
      ((indices 4 lo count).foldl (fun w t => setWord w (0#2 ++ t) (blockWord b t)) w)
      ((indices 4 lo count).foldl (fun w t => setWord w (0#2 ++ t) (blockWord b t)) w') := by
  induction count with
  | zero => intro lo w w' _ h; exact h
  | succ c ih =>
    intro lo w w' hle h
    rw [indices_succ, List.foldl_cons, List.foldl_cons, show lo + (c + 1) = (lo + 1) + c by omega]
    refine ih _ _ _ (by omega) (h.set ?_ rfl)
    rw [BitVec.toNat_append]
    simp; omega

theorem expands_sameBelow (count : Nat) : ∀ (lo : Nat) (w w' : Vector Word 64),
    16 ≤ lo → lo + count ≤ 64 → SameBelow lo w w' →
    SameBelow (lo + count)
      ((indices 6 lo count).foldl (fun w t => setWord w t (expandWord w t)) w)
      ((indices 6 lo count).foldl (fun w t => setWord w t (expandWord w t)) w') := by
  induction count with
  | zero => intro lo w w' _ _ h; exact h
  | succ c ih =>
    intro lo w w' h16 hle h
    have hlo : (BitVec.ofNat 6 lo).toNat = lo := by simp; omega
    rw [indices_succ, List.foldl_cons, List.foldl_cons, show lo + (c + 1) = (lo + 1) + c by omega]
    exact ih _ _ _ (by omega) (by omega) (h.set hlo (expandWord_sameBelow h hlo h16))

/-- A block's schedule does not depend on what W held before (R125: recomputed from scratch). -/
theorem scheduleFrom_eq (w : Vector Word 64) (b : Vector Byte 64) : scheduleFrom w b = schedule b :=
  words_ext fun t => by
    unfold schedule scheduleFrom
    exact expands_sameBelow 48 16 _ _ (by omega) (by omega)
      (loads_sameBelow b 16 0 w _ (by omega) (fun u hu => absurd hu (Nat.not_lt_zero _))) t t.isLt

/-! ### The loops of COMPRESS -/

theorem foldl_loadScheduleWord (l : List (BitVec 4)) : ∀ s : State,
    l.foldl (fun s t => loadScheduleWord t s) s =
      { s with w := l.foldl (fun w t => setWord w (0#2 ++ t) (blockWord s.buf t)) s.w } := by
  induction l with
  | nil => intro s; rfl
  | cons t l ih => intro s; rw [List.foldl_cons, ih]; rfl

theorem foldl_expandScheduleWord (l : List (BitVec 6)) : ∀ s : State,
    l.foldl (fun s t => expandScheduleWord t s) s =
      { s with w := l.foldl (fun w t => setWord w t (expandWord w t)) s.w } := by
  induction l with
  | nil => intro s; rfl
  | cons t l ih => intro s; rw [List.foldl_cons, ih]; rfl

theorem foldl_roundStep (l : List (BitVec 6)) : ∀ s : State,
    l.foldl (fun s t => roundStep t s) s =
      { s with v := l.foldl (fun v t => roundRegs v (wordAt k t) (wordAt s.w t)) s.v } := by
  induction l with
  | nil => intro s; rfl
  | cons t l ih => intro s; rw [List.foldl_cons, ih]; rfl

/-- COMPRESS in one equation (R112, R149). -/
theorem compress_eq (s : State) :
    compress s = { s with
      h := compressBlock s.h s.buf
      v := roundsOf s.h (schedule s.buf)
      w := schedule s.buf } := by
  have hw := scheduleFrom_eq s.w s.buf
  unfold scheduleFrom at hw
  simp only [compress, foldl_loadScheduleWord, foldl_expandScheduleWord, foldl_roundStep, hw]
  simp only [accumulate, loadWorking, compressBlock, roundsOf]

@[simp] theorem compress_phase (s : State) : (compress s).phase = s.phase := by rw [compress_eq]
@[simp] theorem compress_cause (s : State) : (compress s).cause = s.cause := by rw [compress_eq]
@[simp] theorem compress_h (s : State) : (compress s).h = compressBlock s.h s.buf := by rw [compress_eq]
@[simp] theorem compress_w (s : State) : (compress s).w = schedule s.buf := by rw [compress_eq]
@[simp] theorem compress_buf (s : State) : (compress s).buf = s.buf := by rw [compress_eq]
@[simp] theorem compress_n (s : State) : (compress s).n = s.n := by rw [compress_eq]
@[simp] theorem compress_len (s : State) : (compress s).len = s.len := by rw [compress_eq]
@[simp] theorem compress_digest (s : State) : (compress s).digest = s.digest := by rw [compress_eq]
@[simp] theorem compress_cmdPort (s : State) : (compress s).cmdPort = s.cmdPort := by rw [compress_eq]
@[simp] theorem compress_responses (s : State) : (compress s).responses = s.responses := by rw [compress_eq]
@[simp] theorem compress_events (s : State) : (compress s).events = s.events := by rw [compress_eq]

end Sys2Proof.Machine
end

