-- ==== Sys2Proof/Laws/Decode.lean ====
section
/-! SUPPORT. What each decoder can answer: a command word gives a command, a control word a well-formed
micro-operation (spec/30_encoding.md R72, R83). -/

namespace Sys2Proof.Machine

theorem decodeNoOperand_ok {i j : Instr} {arg : BitVec 8} (h : decodeNoOperand i arg = .ok j) : j = i := by
  unfold decodeNoOperand at h
  split at h <;> simp_all

/-- A command word decodes to a command only. -/
theorem decodeCommand_ok {c : BitVec 16} {i : Instr} (h : decodeCommand c = .ok i) : IsCommand i = true := by
  unfold decodeCommand decodeCommandWith at h
  repeat' split at h
  all_goals first
    | (cases decodeNoOperand_ok h; rfl)
    | (cases h; rfl)
    | cases h

/-- The check of the next lemma, on the answer to one control word. -/
def controlAnswerOk : Except DecodeError Instr → Bool
  | .ok i => !IsCommand i && i.wellFormedWith Config.hasHex
  | .error _ => true

theorem controlAnswerOk_decodeControl : ∀ u : BitVec 10, controlAnswerOk (decodeControl u) = true := by
  decide +kernel

/-- A control word decodes to a well-formed micro-operation only. -/
theorem decodeControl_ok {u : BitVec 10} {i : Instr} (h : decodeControl u = .ok i) :
    IsCommand i = false ∧ i.WellFormed := by
  have hu := controlAnswerOk_decodeControl u
  rw [h] at hu
  simpa [controlAnswerOk] using hu

end Sys2Proof.Machine
end

