-- ==== Sys2Proof/Laws/Put.lean ====
section
/-! SUPPORT. What PUT, PUSH and PAD do (spec/41_padding.md R110, R111, R113), field by field. -/

namespace Sys2Proof.Machine

/-! ### PUT (R111) -/

/-- PUT where the buffer does not fill. -/
theorem put_store {b : Byte} {s : State} (hn : s.n ≠ 63#6) :
    put b s = { s with buf := setByte s.buf s.n b, n := s.n + 1 } := by
  simp [put, hn]

/-- PUT where the buffer fills: the block is compressed and N returns to 0. -/
theorem put_fill {b : Byte} {s : State} (hn : s.n = 63#6) :
    put b s = { compress { s with buf := setByte s.buf s.n b } with n := 0 } := by
  simp [put, hn]

@[simp] theorem put_phase (b : Byte) (s : State) : (put b s).phase = s.phase := by
  unfold put; split <;> simp
@[simp] theorem put_cause (b : Byte) (s : State) : (put b s).cause = s.cause := by
  unfold put; split <;> simp
@[simp] theorem put_buf (b : Byte) (s : State) : (put b s).buf = setByte s.buf s.n b := by
  unfold put; split <;> simp
@[simp] theorem put_len (b : Byte) (s : State) : (put b s).len = s.len := by
  unfold put; split <;> simp
@[simp] theorem put_digest (b : Byte) (s : State) : (put b s).digest = s.digest := by
  unfold put; split <;> simp
@[simp] theorem put_cmdPort (b : Byte) (s : State) : (put b s).cmdPort = s.cmdPort := by
  unfold put; split <;> simp
@[simp] theorem put_responses (b : Byte) (s : State) : (put b s).responses = s.responses := by
  unfold put; split <;> simp
@[simp] theorem put_events (b : Byte) (s : State) : (put b s).events = s.events := by
  unfold put; split <;> simp
@[simp] theorem status_put (b : Byte) (s : State) : status (put b s) = status s :=
  status_congr (put_phase b s) (put_cause b s)

/-- The fill index rises by one modulo 64 (R28, R111). -/
@[simp] theorem put_n (b : Byte) (s : State) : (put b s).n = s.n + 1 := by
  unfold put
  split
  · next h => simp [h]
  · rfl

/-- H changes only where the buffer fills, and then to the compression function of H and the block. -/
theorem put_h (b : Byte) (s : State) :
    (put b s).h = if s.n = 63#6 then compressBlock s.h (setByte s.buf s.n b) else s.h := by
  unfold put
  split <;> simp

/-! ### A list of PUTs -/

/-- Put bytes in order. -/
def putAll (l : List Byte) (s : State) : State := l.foldl (fun s b => put b s) s

@[simp] theorem putAll_nil (s : State) : putAll [] s = s := rfl
@[simp] theorem putAll_cons (b : Byte) (l : List Byte) (s : State) :
    putAll (b :: l) s = putAll l (put b s) := rfl
theorem putAll_append (l m : List Byte) (s : State) : putAll (l ++ m) s = putAll m (putAll l s) := by
  simp [putAll]

@[simp] theorem putAll_phase (l : List Byte) (s : State) : (putAll l s).phase = s.phase := by
  induction l generalizing s <;> simp_all
@[simp] theorem putAll_cause (l : List Byte) (s : State) : (putAll l s).cause = s.cause := by
  induction l generalizing s <;> simp_all
@[simp] theorem putAll_len (l : List Byte) (s : State) : (putAll l s).len = s.len := by
  induction l generalizing s <;> simp_all
@[simp] theorem putAll_digest (l : List Byte) (s : State) : (putAll l s).digest = s.digest := by
  induction l generalizing s <;> simp_all
@[simp] theorem putAll_cmdPort (l : List Byte) (s : State) : (putAll l s).cmdPort = s.cmdPort := by
  induction l generalizing s <;> simp_all
@[simp] theorem putAll_responses (l : List Byte) (s : State) : (putAll l s).responses = s.responses := by
  induction l generalizing s <;> simp_all
@[simp] theorem putAll_events (l : List Byte) (s : State) : (putAll l s).events = s.events := by
  induction l generalizing s <;> simp_all

theorem putAll_n (l : List Byte) (s : State) : (putAll l s).n = s.n + BitVec.ofNat 6 l.length := by
  induction l generalizing s with
  | nil => simp
  | cons b l ih =>
    rw [putAll_cons, ih, put_n, BitVec.add_assoc, List.length_cons, Nat.add_comm, BitVec.ofNat_add]
    rfl

/-- PADZ repeated is zeros put in order (R115). -/
theorem iterate_padZero (count : Nat) (s : State) :
    Nat.iterate padZero count s = putAll (List.replicate count 0x00#8) s := by
  induction count generalizing s with
  | zero => rfl
  | succ c ih => rw [Function.iterate_succ_apply, ih, List.replicate_succ, putAll_cons]; rfl

/-- PADL over a list of indices is the length bytes put in order: LEN does not change meanwhile (R113, R116). -/
theorem foldl_padLengthByte (l : List (BitVec 3)) (s : State) :
    l.foldl (fun s i => padLengthByte i s) s = putAll (l.map (lengthByte s.len)) s := by
  induction l generalizing s with
  | nil => rfl
  | cons i l ih => rw [List.foldl_cons, ih, List.map_cons, putAll_cons, padLengthByte, put_len]

/-- The bytes PAD appends, from the fill index and the message length (R113). -/
def padBytes (n : BitVec 6) (len : BitVec 61) : List Byte :=
  markerByte :: List.replicate (zeroCount n) 0x00#8 ++ (indices 3 0 8).map (lengthByte len)

/-- PAD in one equation (R113). -/
theorem padding_eq (s : State) : padding s = putAll (padBytes s.n s.len) s := by
  have hl : (putAll (List.replicate (zeroCount s.n) 0x00#8) (put markerByte s)).len = s.len := by simp
  unfold padding
  simp only [padMarker, iterate_padZero, foldl_padLengthByte, hl, padBytes, List.cons_append, putAll_cons,
    putAll_append]

/-! ### PUSH (R110) -/

theorem countByte_ok {s : State} (h : s.len ≠ maxLen) : countByte s = { s with len := s.len + 1 } := by
  simp [countByte, h]

@[simp] theorem countByte_phase (s : State) : (countByte s).phase = s.phase := by unfold countByte; split <;> rfl
@[simp] theorem countByte_cause (s : State) : (countByte s).cause = s.cause := by unfold countByte; split <;> rfl
@[simp] theorem countByte_h (s : State) : (countByte s).h = s.h := by unfold countByte; split <;> rfl
@[simp] theorem countByte_v (s : State) : (countByte s).v = s.v := by unfold countByte; split <;> rfl
@[simp] theorem countByte_w (s : State) : (countByte s).w = s.w := by unfold countByte; split <;> rfl
@[simp] theorem countByte_buf (s : State) : (countByte s).buf = s.buf := by unfold countByte; split <;> rfl
@[simp] theorem countByte_n (s : State) : (countByte s).n = s.n := by unfold countByte; split <;> rfl
@[simp] theorem countByte_digest (s : State) : (countByte s).digest = s.digest := by
  unfold countByte; split <;> rfl
@[simp] theorem countByte_cmdPort (s : State) : (countByte s).cmdPort = s.cmdPort := by
  unfold countByte; split <;> rfl
@[simp] theorem countByte_responses (s : State) : (countByte s).responses = s.responses := by
  unfold countByte; split <;> rfl
@[simp] theorem countByte_events (s : State) : (countByte s).events = s.events := by
  unfold countByte; split <;> rfl

/-- PUSH where LEN can still rise, which is wherever DATA issues it. -/
theorem pushByte_eq {b : Byte} {s : State} (h : s.len ≠ maxLen) :
    pushByte b s = put b { s with len := s.len + 1 } := by
  rw [pushByte, countByte_ok h]

@[simp] theorem pushByte_phase (b : Byte) (s : State) : (pushByte b s).phase = s.phase := by
  simp [pushByte]
@[simp] theorem pushByte_cause (b : Byte) (s : State) : (pushByte b s).cause = s.cause := by
  simp [pushByte]
@[simp] theorem pushByte_digest (b : Byte) (s : State) : (pushByte b s).digest = s.digest := by
  simp [pushByte]
@[simp] theorem pushByte_cmdPort (b : Byte) (s : State) : (pushByte b s).cmdPort = s.cmdPort := by
  simp [pushByte]
@[simp] theorem pushByte_responses (b : Byte) (s : State) : (pushByte b s).responses = s.responses := by
  simp [pushByte]
@[simp] theorem pushByte_events (b : Byte) (s : State) : (pushByte b s).events = s.events := by
  simp [pushByte]
@[simp] theorem pushByte_buf (b : Byte) (s : State) : (pushByte b s).buf = setByte s.buf s.n b := by
  simp [pushByte]
@[simp] theorem pushByte_n (b : Byte) (s : State) : (pushByte b s).n = s.n + 1 := by
  simp [pushByte]
theorem pushByte_h (b : Byte) (s : State) :
    (pushByte b s).h = if s.n = 63#6 then compressBlock s.h (setByte s.buf s.n b) else s.h := by
  simp [pushByte, put_h]
theorem pushByte_len {b : Byte} {s : State} (h : s.len ≠ maxLen) : (pushByte b s).len = s.len + 1 := by
  simp [pushByte_eq h]

/-- LEN is at its greatest value exactly when it counts 2^61 - 1 bytes (00_scope.md R6). -/
theorem len_eq_maxLen_iff (s : State) : s.len = maxLen ↔ s.len.toNat = 2 ^ 61 - 1 :=
  ⟨fun h => by rw [h]; rfl, fun h => BitVec.eq_of_toNat_eq h⟩

theorem len_succ_toNat {s : State} (h : s.len ≠ maxLen) : (s.len + 1).toNat = s.len.toNat + 1 := by
  have hn : s.len.toNat ≠ 2305843009213693951 := fun he => h (BitVec.eq_of_toNat_eq he)
  have := s.len.isLt
  rw [BitVec.toNat_add]
  simp
  omega

/-! ### PAD (R113) -/

@[simp] theorem padding_phase (s : State) : (padding s).phase = s.phase := by
  simp [padding_eq]
@[simp] theorem padding_cause (s : State) : (padding s).cause = s.cause := by
  simp [padding_eq]
@[simp] theorem padding_digest (s : State) : (padding s).digest = s.digest := by
  simp [padding_eq]
@[simp] theorem padding_cmdPort (s : State) : (padding s).cmdPort = s.cmdPort := by
  simp [padding_eq]
@[simp] theorem padding_responses (s : State) : (padding s).responses = s.responses := by
  simp [padding_eq]
@[simp] theorem padding_events (s : State) : (padding s).events = s.events := by
  simp [padding_eq]
@[simp] theorem padding_len (s : State) : (padding s).len = s.len := by
  simp [padding_eq]

end Sys2Proof.Machine
end

