-- ==== Sys2Proof/Laws/Exec.lean ====
section
/-! SUPPORT. What `exec` can do with a command, said once (spec/40_commands.md R90, R91): it is ignored in FAULT, and
in every phase it answers a next state with one response and an untouched port. -/

namespace Sys2Proof.Machine

/-- A command in phase FAULT is ignored (R100). -/
theorem exec_in_fault {i : Instr} (hi : IsCommand i = true) {s : State} (hp : s.phase = .fault) :
    exec i s = .next (respondStatus s) := by
  cases i <;> simp [IsCommand, encode] at hi <;>
    simp only [exec, execStart, execData, execFinish, execRddg, execRdhx, execStat, gate_fault hp]

/-- The response of a command (R91), from the state before it and the state after it. -/
def responseOf (s : State) (i : Instr) (t : State) : Byte :=
  match s.phase, i with
  | .done, .rddg x => digestAt s.digest x
  | .done, .rdhx x => hexView s.digest x
  | _, _ => status t

/-- Every command answers a next state, with one response, its event list and port untouched. -/
theorem exec_command {i : Instr} (hi : IsCommand i = true) (s : State) :
    ∃ t, exec i s = .next t ∧ t.events = s.events ∧ t.cmdPort = s.cmdPort ∧
      t.responses = s.responses ++ [responseOf s i t] := by
  cases i <;> simp [IsCommand, encode] at hi <;> refine ⟨_, rfl, ?_⟩
  case data b =>
    cases hp : s.phase <;> simp [gate, hp, responseOf, status]
    split <;> simp [status, hp]
  all_goals
    cases hp : s.phase <;> simp [gate, hp, responseOf, status]

end Sys2Proof.Machine
end

