-- ==== Sys2Proof/Laws/Feed.lean ====
section
/-! SUPPORT. Putting bytes through the buffer keeps the relation between the engine and the byte string it has
taken (spec/10_state.md R40, 41_padding.md R118): the step from one byte to the next, and the padding. -/

namespace Sys2Proof.Machine

theorem hashBlocks_succ (p : List Byte) (count : Nat) :
    hashBlocks p (count + 1) = compressBlock (hashBlocks p count) (blockOf p count) := by
  simp [hashBlocks, List.range_succ]

theorem blockOf_append (p l : List Byte) {j : Nat} (h : 64 * j + 64 ≤ p.length) :
    blockOf (p ++ l) j = blockOf p j := by
  refine bytes_ext fun i => ?_
  have := i.isLt
  rw [byteAt_blockOf, byteAt_blockOf, List.getD_append _ _ _ _ (by omega)]

/-- Whole blocks already there do not change when bytes follow (R118). -/
theorem hashBlocks_append (p l : List Byte) {count : Nat} (h : 64 * count ≤ p.length) :
    hashBlocks (p ++ l) count = hashBlocks p count := by
  induction count with
  | zero => simp [hashBlocks]
  | succ c ih => rw [hashBlocks_succ, hashBlocks_succ, ih (by omega), blockOf_append _ _ (by omega)]

/-- One PUT takes one more byte of the string (R111). -/
theorem put_fed {s : State} {p : List Byte} (h : Fed s p) (b : Byte) : Fed (put b s) (p ++ [b]) := by
  obtain ⟨hn, hh, hb⟩ := h
  have hlast : ∀ i : BitVec 6, i.toNat < p.length % 64 + 1 →
      byteAt (setByte s.buf s.n b) i = (p ++ [b]).getD (64 * (p.length / 64) + i.toNat) 0 := by
    intro i hi
    by_cases hin : i = s.n
    · subst hin
      rw [byteAt_setByte_self, hn, show 64 * (p.length / 64) + p.length % 64 = p.length by omega,
        List.getD_append_right _ _ _ _ (le_refl _)]
      simp
    · have hne : i.toNat ≠ s.n.toNat := fun he => hin (BitVec.eq_of_toNat_eq he)
      rw [byteAt_setByte_ne _ _ hin, hb i (by omega), List.getD_append _ _ _ _ (by omega)]
  have hlen : (p ++ [b]).length = p.length + 1 := by simp
  by_cases hfull : s.n = 63#6
  · have h63 : p.length % 64 = 63 := by rw [← hn, hfull]; rfl
    refine ⟨?_, ?_, ?_⟩
    · rw [put_n, hfull, hlen]; simp; omega
    · rw [put_h, if_pos hfull, hlen, show (p.length + 1) / 64 = p.length / 64 + 1 by omega, hashBlocks_succ,
        hashBlocks_append _ _ (by omega), ← hh]
      congr 1
      refine bytes_ext fun i => ?_
      have := i.isLt
      rw [hlast i (by omega), byteAt_blockOf]
    · intro i hi
      rw [hlen] at hi; omega
  · have hlt : p.length % 64 < 63 := by
      have : s.n.toNat ≠ 63 := fun he => hfull (BitVec.eq_of_toNat_eq he)
      omega
    have hdiv : (p.length + 1) / 64 = p.length / 64 := by omega
    refine ⟨?_, ?_, ?_⟩
    · rw [put_n, hlen, BitVec.toNat_add, hn]; simp
    · rw [put_h, if_neg hfull, hlen, hdiv, hashBlocks_append _ _ (by omega), hh]
    · intro i hi
      rw [hlen] at hi
      rw [put_buf, hlen, hdiv]
      exact hlast i (by omega)

theorem putAll_fed (l : List Byte) {s : State} {p : List Byte} (h : Fed s p) :
    Fed (putAll l s) (p ++ l) := by
  induction l generalizing s p with
  | nil => simpa using h
  | cons b l ih => simpa using ih (put_fed h b)

theorem zeroCount_eq {n : BitVec 6} {length : Nat} (h : n.toNat = length % 64) :
    zeroCount n = zeroBytes length := by
  have := n.isLt
  rw [zeroCount, zeroBytes, BitVec.toNat_sub, h]
  simp
  omega

theorem lengthByte_eq {len : BitVec 61} {length : Nat} (h : len.toNat = length) (i : BitVec 3) :
    lengthByte len i = (BitVec.ofNat 64 (8 * length)).extractLsb' (56 - 8 * i.toNat) 8 := by
  have : bitLength len = BitVec.ofNat 64 (8 * length) := by
    apply BitVec.eq_of_toNat_eq
    have := len.isLt
    rw [bitLength, BitVec.toNat_append, h]
    simp [Nat.shiftLeft_eq]
    omega
  rw [lengthByte, this]

/-- The bytes PAD appends are those of the padded message (R113, R118). -/
theorem padBytes_eq {n : BitVec 6} {len : BitVec 61} {m : List Byte} (hn : n.toNat = m.length % 64)
    (hl : len.toNat = m.length) : m ++ padBytes n len = padMessage m := by
  have : (indices 3 0 8).map (lengthByte len) = be64 m.length := by
    simp only [indices, be64, List.map_map]
    rw [← List.range_eq_range']
    refine List.map_congr_left fun i hi => ?_
    have := List.mem_range.mp hi
    rw [Function.comp_apply, lengthByte_eq hl, BitVec.toNat_ofNat, Nat.mod_eq_of_lt (by omega)]
  simp [padBytes, padMessage, this, zeroCount_eq hn]

/-- After PAD the hash state is that of the whole padded message (R164). -/
theorem padding_finalHash {s : State} {m : List Byte} (h : Absorbing s m) :
    (padding s).h = finalHash m := by
  obtain ⟨-, -, hl, hf⟩ := h
  have hp := putAll_fed (padBytes s.n s.len) hf
  rw [padBytes_eq hf.1 hl] at hp
  rw [padding_eq, hp.2.1, finalHash]

end Sys2Proof.Machine
end

