-- ==== Sys2Proof/Laws/PerInstr.lean ====
section
/-! SUPPORT. Per instruction: the encoder's word lies in the instruction's row of spec/opcode_table.json, that
is, the word under the row's mask is the row's match (spec/30_encoding.md R74, R83). -/

namespace Sys2Proof.Laws.TableRow

/-- The word of an instruction under its row's mask is its row's match. -/
def Statement (i : Instr) : Prop := (encode i).number &&& i.tableMask = i.tableMatch

theorem start : Statement .start := rfl

theorem data (b : BitVec 8) : Statement (.data b) := by
  unfold Statement; revert b; decide

theorem finish : Statement .finish := rfl

theorem rddg (i : BitVec 5) : Statement (.rddg i) := by
  unfold Statement; revert i; decide

theorem rdhx (j : BitVec 6) : Statement (.rdhx j) := by
  unfold Statement; revert j; decide

theorem stat : Statement .stat := rfl

theorem init : Statement .init := rfl

theorem push : Statement .push := rfl

theorem padm : Statement .padm := rfl

theorem padz : Statement .padz := rfl

theorem padl (i : BitVec 3) : Statement (.padl i) := by
  unfold Statement; revert i; decide

theorem ldw (t : BitVec 4) : Statement (.ldw t) := by
  unfold Statement; revert t; decide

theorem exp (t : BitVec 6) : Statement (.exp t) := by
  unfold Statement; revert t; decide

theorem ldv : Statement .ldv := rfl

theorem rnd (t : BitVec 6) : Statement (.rnd t) := by
  unfold Statement; revert t; decide

theorem acc : Statement .acc := rfl

theorem ser : Statement .ser := rfl

theorem discard : Statement .discard := rfl

end Sys2Proof.Laws.TableRow
end

