-- ==== Sys2Proof/Laws/Run.lean ====
section
/-! SUPPORT. Running the machine step by step, in the model's own names. -/

namespace Sys2Proof.Machine

/-- A run of one step more, where the first answers a next state. -/
theorem run_succ {s t : State} (h : step s = .next t) (count : Nat) :
    Host.Core.run Sys2Proof.core (count + 1) s = Host.Core.run Sys2Proof.core count t := by
  have hs : Sys2Proof.core.step s = .next t := h
  simp only [Host.Core.run, hs]

theorem run_zero (s : State) : Host.Core.run Sys2Proof.core 0 s = .next s := rfl

end Sys2Proof.Machine
end

