-- ==== Sys2Proof/Tests/Slice0.lean ====
section
/-! SUPPORT. The model's own tests: the checks of WellFormed, one word written out bit by bit for every
constructor (spec/30_encoding.md R70 to R76, R83), the spec's own examples (the section is named at each), and for
every statement with hypotheses a concrete input that meets them. -/

namespace Sys2Proof.Tests

open Sys2Proof Sys2Proof.Machine

/-! ### Helpers -/

/-- An engine in a phase, with the cause a fault by SEQUENCE leaves. -/
def inPhase (p : Phase) : State :=
  { State.reset with phase := p, cause := if p = .fault then .sequence else .none }

/-- That engine with events pending. -/
def withEvents (p : Phase) (es : List Event) : State := { inPhase p with events := es }

/-- Whether an outcome is a next state that passes a check. -/
def nextHas (o : Host.Outcome State Fault Refusal) (check : State → Bool) : Bool :=
  match o with
  | .next t => check t
  | _ => false

/-- An array of bytes as one number, the first byte the most significant. -/
def asNumber (bytes : List Byte) : Nat := bytes.foldl (fun a b => 256 * a + b.toNat) 0

/-- A block buffer whose first bytes are those given, and zero after them. -/
def bufferOf (bytes : List Byte) : Vector Byte 64 := Vector.ofFn fun i : Fin 64 => bytes.getD i.val 0

/-- The engine in a call that has taken the given bytes of its first block. -/
def absorbed (bytes : List Byte) : State :=
  { inPhase .absorb with
    h := iv
    buf := bufferOf bytes
    n := BitVec.ofNat 6 bytes.length
    len := BitVec.ofNat 61 bytes.length }

/-- The bytes of `"abc"`. -/
def abc : List Byte := [0x61#8, 0x62#8, 0x63#8]

/-- The one block of the padded `"abc"` (95_test_vectors.md 4.1). -/
def abcBlock : Vector Byte 64 :=
  bufferOf (abc ++ [0x80#8] ++ List.replicate 59 0x00#8 ++ [0x18#8])

/-! ### WellFormed -/

theorem test_wellFormed_exp_index_refused : ¬ (Instr.exp 15#6).WellFormed := by decide
theorem test_wellFormed_rdhx_without_helper_refused :
    (Instr.rdhx 0#6).wellFormedWith false = false := by decide
theorem test_wellFormed_accepts : (Instr.exp 16#6).WellFormed ∧ (Instr.rdhx 63#6).WellFormed := by decide

/-! ### Decoding, bit by bit (R70 to R73, R83) -/

theorem test_decode_start : decodeCommand 0b0001_0000_00000000#16 = .ok .start := by decide
theorem test_decode_data : decodeCommand 0b0010_0000_10100101#16 = .ok (.data 0b10100101#8) := by decide
theorem test_decode_finish : decodeCommand 0b0011_0000_00000000#16 = .ok .finish := by decide
theorem test_decode_rddg : decodeCommand 0b0100_0000_000_10110#16 = .ok (.rddg 0b10110#5) := by decide
theorem test_decode_rdhx : decodeCommand 0b0101_0000_00_100110#16 = .ok (.rdhx 0b100110#6) := by decide
theorem test_decode_stat : decodeCommand 0b0110_0000_00000000#16 = .ok .stat := by decide
theorem test_decode_init : decodeControl 0b0001_000000#10 = .ok .init := by decide
theorem test_decode_push : decodeControl 0b0010_000000#10 = .ok .push := by decide
theorem test_decode_padm : decodeControl 0b0011_000000#10 = .ok .padm := by decide
theorem test_decode_padz : decodeControl 0b0100_000000#10 = .ok .padz := by decide
theorem test_decode_padl : decodeControl 0b0101_000_110#10 = .ok (.padl 0b110#3) := by decide
theorem test_decode_ldw : decodeControl 0b0110_00_1011#10 = .ok (.ldw 0b1011#4) := by decide
theorem test_decode_exp : decodeControl 0b0111_010001#10 = .ok (.exp 0b010001#6) := by decide
theorem test_decode_ldv : decodeControl 0b1000_000000#10 = .ok .ldv := by decide
theorem test_decode_rnd : decodeControl 0b1001_100101#10 = .ok (.rnd 0b100101#6) := by decide
theorem test_decode_acc : decodeControl 0b1010_000000#10 = .ok .acc := by decide
theorem test_decode_ser : decodeControl 0b1011_000000#10 = .ok .ser := by decide
theorem test_decode_discard : decodeControl 0b1100_000000#10 = .ok .discard := by decide

/-- One word of each class of illegal command words (R76). -/
theorem test_decode_refuses_commands :
    decodeCommand 0b0010_0001_01100001#16 = .error .reservedBits ∧
    decodeCommand 0b0111_0000_00000000#16 = .error .reservedOpcode ∧
    decodeCommand 0b0001_0000_00000001#16 = .error .operandNotZero ∧
    decodeCommand 0b0100_0000_00100000#16 = .error .digestIndex ∧
    decodeCommand 0b0101_0000_01000000#16 = .error .hexIndex ∧
    decodeCommandWith false 0b0101_0000_00000000#16 = .error .noHexHelper := by decide

/-- The examples of R84: an unused `ucode`, PADL 8, LDW 16, EXP 15, an index on INIT. -/
theorem test_decode_refuses_control_words :
    decodeControl 0b1101_000000#10 = .error .unusedUcode ∧
    decodeControl 0b0101_001000#10 = .error .controlIndex ∧
    decodeControl 0b0110_010000#10 = .error .controlIndex ∧
    decodeControl 0b0111_001111#10 = .error .controlIndex ∧
    decodeControl 0b0001_000001#10 = .error .controlIndex := by decide

/-- The table's numbering of a row of each kind. -/
theorem test_decodeTableWord :
    decodeTableWord 16 0x2061 = some (.data 0x61#8) ∧ decodeTableWord 16 0x1D0 = some (.exp 16#6) ∧
    decodeTableWord 16 0x1C0 = none := by decide

/-! ### The spec's examples, commands (40_commands.md R92 to R99) -/

theorem test_start : nextHas (exec .start State.reset) (fun t =>
    t.responses = [0x01#8] && t.h[0] = 0x6a09e667#32 && t.len = 0 && t.n = 0) = true := by decide
theorem test_start_in_absorb : nextHas (exec .start (absorbed [])) (fun t =>
    t.responses = [0x0B#8] && t.phase = .fault) = true := by decide
theorem test_data : nextHas (exec (.data 0x61#8) (absorbed [])) (fun t =>
    t.responses = [0x01#8] && byteAt t.buf 0 = 0x61#8 && t.n = 1 && t.len = 1 && t.h = iv) = true := by decide
theorem test_data_at_longest_message :
    nextHas (exec (.data 0#8) { absorbed [] with len := 0x1FFFFFFFFFFFFFFF#61 }) (fun t =>
      t.responses = [0x0F#8]) = true := by decide
theorem test_finish_abc : nextHas (exec .finish (absorbed abc)) (fun t =>
    t.responses = [0x02#8] && asNumber t.digest.toList =
      0xba7816bf8f01cfea414140de5dae2223b00361a396177a9cb410ff61f20015ad) = true := by decide +kernel
theorem test_finish_empty : nextHas (exec .finish (absorbed [])) (fun t =>
    asNumber t.digest.toList =
      0xe3b0c44298fc1c149afbf4c8996fb92427ae41e4649b934ca495991b7852b855) = true := by decide +kernel

/-- An engine that holds a digest whose first byte is 0xba and whose last is 0xad, as after `"abc"`. -/
def digestHeld : State :=
  { inPhase .done with digest := (Vector.replicate 32 0x00#8).set 0 0xba#8 |>.set 31 0xad#8 }

theorem test_rddg : nextHas (exec (.rddg 31#5) digestHeld) (fun t => t.responses = [0xad#8]) = true := by decide
theorem test_rddg_early : nextHas (exec (.rddg 0#5) (absorbed [])) (fun t => t.responses = [0x0B#8]) = true := by
  decide
theorem test_rdhx_high_nibble :
    nextHas (exec (.rdhx 0#6) digestHeld) (fun t => t.responses = [0x62#8]) = true := by decide
theorem test_rdhx_low_nibble :
    nextHas (exec (.rdhx 63#6) digestHeld) (fun t => t.responses = [0x64#8]) = true := by decide
theorem test_stat : nextHas (exec .stat digestHeld) (fun t => t.responses = [0x02#8]) = true := by decide
theorem test_illegal_word : nextHas (step (withEvents .done [.command 0x0000#16])) (fun t =>
    t.responses = [0x07#8] && t.cause = .illegalCmd) = true := by decide

/-! ### The spec's examples, micro-operations (95_test_vectors.md 4; R114 to R116, R127, R128, R145, R161, R162) -/

theorem test_init : nextHas (exec .init State.reset) (fun t => t.h[7] = 0x5be0cd19#32 && t.phase = .idle) = true := by
  decide
theorem test_push : nextHas (exec .push { absorbed abc with cmdPort := 0x20FF#16 }) (fun t =>
    byteAt t.buf 3 = 0xFF#8 && t.n = 4 && t.len = 4) = true := by decide
theorem test_padm : nextHas (exec .padm (absorbed abc)) (fun t =>
    byteAt t.buf 3 = 0x80#8 && t.n = 4 && t.len = 3) = true := by decide
theorem test_padz : nextHas (exec .padz { absorbed abc with buf := Vector.replicate 64 0xFF#8 }) (fun t =>
    byteAt t.buf 3 = 0x00#8 && byteAt t.buf 4 = 0xFF#8 && t.n = 4) = true := by decide

/-- PADL 7 of `"abc"` completes the block and compresses it: H is the digest's words (4.1, 4.3). -/
theorem test_padl_compresses :
    nextHas (exec (.padl 7#3) { absorbed abc with buf := abcBlock, n := 63#6 }) (fun t =>
      t.n = 0 && byteAt t.buf 63 = 0x18#8 && t.h.toList = [0xba7816bf#32, 0x8f01cfea#32, 0x414140de#32,
        0x5dae2223#32, 0xb00361a3#32, 0x96177a9c#32, 0xb410ff61#32, 0xf20015ad#32]) = true := by decide +kernel

/-- The length field of 2^61 - 1 bytes is 0xfffffffffffffff8 (95_test_vectors.md 2.1). -/
theorem test_padl_longest : lengthByte maxLen 0#3 = 0xFF#8 ∧ lengthByte maxLen 7#3 = 0xF8#8 := by decide

theorem test_ldw : nextHas (exec (.ldw 0#4) { State.reset with buf := abcBlock }) (fun t =>
    wordAt t.w 0 = 0x61626380#32) = true := by decide
theorem test_ldw_last : nextHas (exec (.ldw 15#4) { State.reset with buf := abcBlock }) (fun t =>
    wordAt t.w 15 = 0x00000018#32 && wordAt t.w 0 = 0#32) = true := by decide

/-- The schedule of `"abc"` up to W[17] (4.2). -/
def abcSchedule : Vector Word 64 :=
  (Vector.replicate 64 0#32).set 0 0x61626380#32 |>.set 15 0x18#32 |>.set 16 0x61626380#32 |>.set 17 0x000f0000#32

theorem test_exp : nextHas (exec (.exp 18#6) { State.reset with w := abcSchedule }) (fun t =>
    wordAt t.w 18 = 0x7da86405#32) = true := by decide
theorem test_exp_below_range : (match exec (.exp 15#6) State.reset with
    | .refused r => decide (r = .controlWordOutsideTable 0x1CF#10)
    | _ => false) = true := by decide
theorem test_ldv : nextHas (exec .ldv (absorbed [])) (fun t => t.v = iv && t.h = iv) = true := by decide

/-- RND 0 of `"abc"` (4.3). -/
theorem test_rnd : nextHas (exec (.rnd 0#6) { State.reset with v := iv, w := abcSchedule }) (fun t =>
    t.v.toList = [0x5d6aebcd#32, 0x6a09e667#32, 0xbb67ae85#32, 0x3c6ef372#32,
      0xfa2a4622#32, 0x510e527f#32, 0x9b05688c#32, 0x1f83d9ab#32]) = true := by decide

/-- The wrap of R161: H[1] = 0xbb67ae85 + 0xd39a2165. -/
theorem test_acc : nextHas (exec .acc { absorbed [] with v := (Vector.replicate 8 0#32).set 1 0xd39a2165#32 })
    (fun t => t.h[1] = 0x8f01cfea#32 && t.h[0] = 0x6a09e667#32) = true := by decide
theorem test_ser : nextHas
    (exec .ser { absorbed [] with h := ((Vector.replicate 8 0#32).set 0 0xba7816bf#32).set 7 0xf20015ad#32 })
    (fun t => t.digest.toList.take 4 = [0xba#8, 0x78#8, 0x16#8, 0xbf#8] &&
      t.digest.toList.drop 28 = [0xf2#8, 0x00#8, 0x15#8, 0xad#8]) = true := by decide +kernel
theorem test_discard : nextHas (exec .discard digestHeld) (fun t =>
    t.digest = digestHeld.digest && t.phase = .done) = true := by decide

/-- The digest of 56 times `a`, whose padding needs a second block (95_test_vectors.md 2.1). -/
theorem test_sha256_two_blocks : asNumber (sha256 (List.replicate 56 0x61#8)).toList =
    0xb35439a4ac6f0948b6d6f9e3c6af0f5f590ce20f1bde7090ef7970686ec6738a := by decide +kernel

/-- A line of the assembler with a comment, a refused index, a word on purpose (30_encoding.md R80, R81). -/
theorem test_assembler :
    assembleLine "DATA 0x61 ; a byte".toList = some [.command 0x2061#16] ∧
    assembleLine "RDDG 32".toList = none ∧ assembleLine ".word 0x1001".toList = some [.command 0x1001#16] ∧
    assembleLine "HASH \"ab\"".toList =
      some [.command 0x1000#16, .command 0x2061#16, .command 0x2062#16, .command 0x3000#16] := by decide

/-! ### Inputs that meet the hypotheses of each statement -/

/-- An engine in phase FAULT with a given cause. -/
def faulted (c : Cause) : State := { inPhase .fault with cause := c }

/-- The engine in a call that has taken 62 or 63 zero bytes: one before the last, and the last, of a block. -/
def nearlyFull (count : Nat) : State := absorbed (List.replicate count 0x00#8)

/-- A longest message, at one byte less and at its full length. -/
def longCall (len : BitVec 61) : State := { inPhase .absorb with len := len }

theorem statusOk_inPhase (p : Phase) : StatusOk (inPhase p) := by
  unfold StatusOk; cases p <;> decide

theorem statusOk_withEvents (p : Phase) (es : List Event) : StatusOk (withEvents p es) := statusOk_inPhase p

theorem statusOk_absorbed (bytes : List Byte) : StatusOk (absorbed bytes) := statusOk_inPhase .absorb

theorem statusOk_longCall (len : BitVec 61) : StatusOk (longCall len) := statusOk_inPhase .absorb

theorem statusOk_digestHeld : StatusOk digestHeld := statusOk_inPhase .done

theorem absorbing_none : Absorbing (absorbed []) [] := by
  refine ⟨rfl, rfl, rfl, rfl, by simp [hashBlocks, absorbed], fun i hi => ?_⟩
  exact absurd hi (Nat.not_lt_zero _)

theorem absorbing_one : Absorbing (absorbed [0x61#8]) [0x61#8] := by
  refine ⟨rfl, rfl, rfl, rfl, by simp [hashBlocks, absorbed], ?_⟩
  decide

theorem absorbing_nearlyFull : Absorbing (nearlyFull 63) (List.replicate 63 0x00#8) := by
  refine ⟨rfl, rfl, rfl, rfl, by simp [hashBlocks, nearlyFull, absorbed], ?_⟩
  decide

theorem test_witness_StepRunsTheNextEvent :
    (withEvents .idle []).events = [] ∧
    ((withEvents .idle [.command 0x1000#16]).events = .command 0x1000#16 :: [] ∧
      decodeCommand 0x1000#16 = .ok .start) ∧
    ((withEvents .done [.command 0x1001#16]).events = .command 0x1001#16 :: [] ∧
      decodeCommand 0x1001#16 = .error .operandNotZero) ∧
    ((withEvents .idle [.control 0x1D0#10]).events = .control 0x1D0#10 :: [] ∧
      decodeControl 0x1D0#10 = .ok (.exp 16#6)) ∧
    ((withEvents .idle [.control 0x1CF#10]).events = .control 0x1CF#10 :: [] ∧
      decodeControl 0x1CF#10 = .error .controlIndex) ∧
    (withEvents .fault [.reset]).events = .reset :: [] := by decide

theorem test_witness_ResetEventLeavesIdle : (withEvents .fault [.reset]).events = .reset :: [] := rfl

theorem test_witness_PlacedTableWordRuns :
    decodeTableWord 16 0x503F = some (.rdhx 63#6) ∧ decodeTableWord 16 0x300 = some .discard := by decide

theorem test_witness_IllegalWordsFault :
    ((withEvents .absorb [.command 0x0000#16]).events = .command 0x0000#16 :: [] ∧
      isInstr (decodeCommand 0x0000#16) = false ∧ (withEvents .absorb [.command 0x0000#16]).phase ≠ .fault) ∧
    ((withEvents .fault [.command 0x4020#16]).events = .command 0x4020#16 :: [] ∧
      isInstr (decodeCommand 0x4020#16) = false ∧ (withEvents .fault [.command 0x4020#16]).phase = .fault) := by
  decide

theorem test_witness_DecodeEncodeRoundTrip : (Instr.exp 16#6).WellFormed ∧ (Instr.exp 63#6).WellFormed := by decide

theorem test_witness_EncodeDecodeRoundTrip :
    decode (.command 0x401F#16) = .ok (.rddg 31#5) ∧ decode (.control 0x147#10) = .ok (.padl 7#3) := by decide

theorem test_witness_HexHelperParameter :
    (0x5000#16).toNat / 4096 = 5 ∧ (0x5FFF#16).toNat / 4096 = 5 ∧ (0x4FFF#16).toNat / 4096 ≠ 5 ∧
    (0x6000#16).toNat / 4096 ≠ 5 := by decide

theorem test_witness_ControlWordsOutsideTableRefused :
    (withEvents .idle [.control 0x1CF#10]).events = .control 0x1CF#10 :: [] ∧
    isInstr (decodeControl 0x1CF#10) = false ∧ (0#6).toNat < 16 ∧ (15#6).toNat < 16 := by decide

theorem test_witness_SequencerIssuesTableWords :
    Instr.push ∈ issued (.data 0#8) (absorbed []) ∧ Instr.discard ∈ issued .start (absorbed []) ∧
    Instr.padl 7#3 ∈ issued .finish (nearlyFull 55) ∧ Instr.discard ∈ issuedByWord 0xFFFF#16 (inPhase .idle) := by
  decide +kernel

theorem test_witness_StatusByteValues :
    (StatusOk (inPhase .idle) ∧ StatusOk (inPhase .absorb) ∧ StatusOk (inPhase .done)) ∧
    StatusOk (faulted .illegalCmd) ∧ StatusOk (faulted .sequence) ∧ StatusOk (faulted .length) := by
  refine ⟨⟨statusOk_inPhase _, statusOk_inPhase _, statusOk_inPhase _⟩, ?_⟩
  unfold StatusOk; decide

theorem test_witness_PhaseTable :
    ((withEvents .idle [.command 0xFFFF#16]).events = .command 0xFFFF#16 :: []) ∧
    ((withEvents .fault [.command 0x1000#16]).events = .command 0x1000#16 :: []) ∧
    IsCommand (.data 0xFF#8) = true ∧ IsCommand .stat = true ∧
    (withEvents .done [.reset]).events = .reset :: [] := by decide

theorem test_witness_FaultEntryRecordsCause :
    Cause.illegalCmd ≠ .none ∧ Cause.sequence ≠ .none ∧ Cause.length ≠ .none := by decide

theorem test_witness_FaultPhaseIgnoresCommands :
    (withEvents .fault [.command 0x1000#16]).phase = .fault ∧
    (withEvents .fault [.command 0x1000#16]).events = .command 0x1000#16 :: [] := by decide

theorem test_witness_OnlyResetLeavesFault :
    (∃ t, (withEvents .fault [.command 0x1000#16]).phase = .fault ∧
      step (withEvents .fault [.command 0x1000#16]) = .next t) ∧
    (∃ t, (withEvents .fault [.reset]).phase = .fault ∧ step (withEvents .fault [.reset]) = .next t) :=
  ⟨⟨_, rfl, rfl⟩, ⟨_, rfl, rfl⟩⟩

theorem test_witness_OneResponsePerCommand :
    (withEvents .done [.command 0x401F#16]).events = .command 0x401F#16 :: [] ∧
    (withEvents .idle [.command 0x5000#16]).events = .command 0x5000#16 :: [] ∧
    ∃ t, (∀ c rest, (withEvents .idle [.reset]).events ≠ .command c :: rest) ∧
      step (withEvents .idle [.reset]) = .next t :=
  ⟨rfl, rfl, _, by simp [withEvents], rfl⟩

theorem test_witness_StatusInvariantKept :
    (∃ t, StatusOk (withEvents .absorb [.command 0x1000#16]) ∧
      step (withEvents .absorb [.command 0x1000#16]) = .next t) ∧
    (∃ t, StatusOk (withEvents .fault [.control 0x300#10]) ∧
      step (withEvents .fault [.control 0x300#10]) = .next t) :=
  ⟨⟨_, statusOk_withEvents _ _, rfl⟩, ⟨_, statusOk_withEvents _ _, rfl⟩⟩

theorem test_witness_EngineInvariantKept :
    ∃ t, EngineInv { nearlyFull 63 with events := [.command 0x20FF#16] } ∧
      step { nearlyFull 63 with events := [.command 0x20FF#16] } = .next t := by
  refine ⟨_, ⟨statusOk_inPhase .absorb, fun _ => rfl, ?_⟩, rfl⟩
  intro e he
  rw [List.mem_singleton.mp he]; rfl

theorem test_witness_StartBeginsCall :
    (StatusOk (inPhase .idle) ∧ (inPhase .idle).phase = .idle) ∧
    (StatusOk (inPhase .done) ∧ (inPhase .done).phase = .done) ∧
    (StatusOk (inPhase .absorb) ∧ (inPhase .absorb).phase = .absorb) :=
  ⟨⟨statusOk_inPhase _, rfl⟩, ⟨statusOk_inPhase _, rfl⟩, ⟨statusOk_inPhase _, rfl⟩⟩

theorem test_witness_DataAppendsByte :
    (StatusOk (nearlyFull 62) ∧ (nearlyFull 62).phase = .absorb ∧ (nearlyFull 62).len.toNat < 2 ^ 61 - 1 ∧
      (nearlyFull 62).n.toNat < 63) ∧
    (StatusOk (nearlyFull 63) ∧ (nearlyFull 63).phase = .absorb ∧ (nearlyFull 63).len.toNat < 2 ^ 61 - 1 ∧
      (nearlyFull 63).n.toNat = 63) ∧
    (StatusOk (longCall 0x1FFFFFFFFFFFFFFE#61) ∧ (longCall 0x1FFFFFFFFFFFFFFE#61).phase = .absorb ∧
      (longCall 0x1FFFFFFFFFFFFFFE#61).len.toNat < 2 ^ 61 - 1) ∧
    (StatusOk (longCall 0x1FFFFFFFFFFFFFFF#61) ∧ (longCall 0x1FFFFFFFFFFFFFFF#61).phase = .absorb ∧
      (longCall 0x1FFFFFFFFFFFFFFF#61).len.toNat = 2 ^ 61 - 1) ∧
    (StatusOk (inPhase .idle) ∧ (inPhase .idle).phase = .idle) ∧
    (StatusOk (inPhase .done) ∧ (inPhase .done).phase = .done) :=
  ⟨⟨statusOk_absorbed _, by decide⟩, ⟨statusOk_absorbed _, by decide⟩, ⟨statusOk_longCall _, by decide⟩,
    ⟨statusOk_longCall _, by decide⟩, ⟨statusOk_inPhase _, rfl⟩, ⟨statusOk_inPhase _, rfl⟩⟩

theorem test_witness_FinishRunsPadSerDiscard :
    (StatusOk (nearlyFull 63) ∧ (nearlyFull 63).phase = .absorb) ∧
    (StatusOk (inPhase .idle) ∧ (inPhase .idle).phase = .idle) ∧
    (StatusOk (inPhase .done) ∧ (inPhase .done).phase = .done) :=
  ⟨⟨statusOk_absorbed _, rfl⟩, ⟨statusOk_inPhase _, rfl⟩, ⟨statusOk_inPhase _, rfl⟩⟩

theorem test_witness_RddgReadsDigest :
    digestHeld.phase = .done ∧ (inPhase .idle).phase = .idle ∧ (inPhase .absorb).phase = .absorb := by decide

theorem test_witness_RdhxReadsHexCharacter :
    digestHeld.phase = .done ∧ (inPhase .idle).phase = .idle ∧ (inPhase .absorb).phase = .absorb := by decide

theorem test_witness_ReadsAreRepeatable :
    (0x6000#16 = statWord ∧ (withEvents .fault [.command 0x6000#16, .command 0x6000#16]).events =
      .command 0x6000#16 :: .command 0x6000#16 :: []) ∧
    (digestHeld.phase = .done ∧ IsRead 0x401F#16 ∧ IsRead 0x503F#16) := by
  unfold IsRead; decide

theorem test_witness_PutStoresByte :
    (storedByte .push { nearlyFull 62 with cmdPort := 0x20AB#16 } = some 0xAB#8 ∧
      { nearlyFull 62 with cmdPort := 0x20AB#16 }.n.toNat < 63 ∧
      { nearlyFull 62 with cmdPort := 0x20AB#16 }.len.toNat < 2 ^ 61 - 1) ∧
    (storedByte (.padl 7#3) (nearlyFull 63) = some 0xF8#8 ∧ (nearlyFull 63).n.toNat = 63 ∧
      Instr.padl 7#3 ≠ .push) ∧
    storedByte .padm (nearlyFull 63) = some 0x80#8 ∧ storedByte .padz (nearlyFull 62) = some 0x00#8 := by decide

theorem test_witness_LdwLoadsBlockWord : (1#6).toNat ≠ (0#4).toNat ∧ (16#6).toNat ≠ (15#4).toNat := by decide

theorem test_witness_ExpDerivesScheduleWord :
    16 ≤ (16#6).toNat ∧ 16 ≤ (63#6).toNat ∧ (15#6 ≠ 16#6) := by decide

theorem test_witness_SerWritesDigest : (0 < 32 ∧ 0 / 4 < 8) ∧ (31 < 32 ∧ 31 / 4 < 8) := by decide

theorem test_witness_MicroOperationsNeverFault :
    (IsCommand (.exp 16#6) = false ∧ (Instr.exp 16#6).WellFormed) ∧
    (IsCommand .discard = false ∧ Instr.discard.WellFormed) := by decide

theorem test_witness_StartAndDataAreTheirMicroOperations :
    (inPhase .idle).phase = .idle ∧ (inPhase .done).phase = .done ∧
    ((nearlyFull 63).phase = .absorb ∧ (nearlyFull 63).len.toNat < 2 ^ 61 - 1) ∧
    ((longCall 0x1FFFFFFFFFFFFFFE#61).phase = .absorb ∧
      (longCall 0x1FFFFFFFFFFFFFFE#61).len.toNat < 2 ^ 61 - 1) := by decide

theorem test_witness_ChooseAndMajority : 0 < 32 ∧ 31 < 32 := by decide

theorem test_witness_ScheduleMeetsRecurrence : 16 ≤ (16#6).toNat ∧ 16 ≤ (63#6).toNat := by decide

theorem test_witness_StartAbsorbsEmptyMessage :
    (StatusOk (inPhase .idle) ∧ (inPhase .idle).phase = .idle) ∧
    (StatusOk digestHeld ∧ digestHeld.phase = .done) :=
  ⟨⟨statusOk_inPhase _, rfl⟩, ⟨statusOk_digestHeld, rfl⟩⟩

theorem test_witness_DataExtendsMessage :
    (Absorbing (absorbed []) [] ∧ ([] : List Byte).length < 2 ^ 61 - 1) ∧
    (Absorbing (nearlyFull 63) (List.replicate 63 0x00#8) ∧
      (List.replicate 63 (0x00#8)).length < 2 ^ 61 - 1) :=
  ⟨⟨absorbing_none, by decide⟩, ⟨absorbing_nearlyFull, by decide⟩⟩

theorem test_witness_FinishLatchesSha256 :
    Absorbing (absorbed []) [] ∧ Absorbing (absorbed [0x61#8]) [0x61#8] ∧
    Absorbing (nearlyFull 63) (List.replicate 63 0x00#8) :=
  ⟨absorbing_none, absorbing_one, absorbing_nearlyFull⟩

/-- A call on the one byte 0x60, with STAT twice and four reads. -/
def sampleCall : List (BitVec 16) :=
  [0x1000#16, 0x6000#16, 0x2060#16, 0x3000#16, 0x4000#16, 0x6000#16, 0x401F#16, 0x5000#16, 0x503F#16]

/-- From DONE with reset to follow, and from IDLE with nothing to follow. -/
theorem test_witness_WellFormedCallAnswersDigest :
    (StatusOk (withEvents .done (sampleCall.map .command ++ [.reset])) ∧
      (withEvents .done (sampleCall.map .command ++ [.reset])).phase = .done ∧
      (withEvents .done (sampleCall.map .command ++ [.reset])).events =
        sampleCall.map .command ++ [.reset]) ∧
    (StatusOk (withEvents .idle (sampleCall.map .command)) ∧
      (withEvents .idle (sampleCall.map .command)).phase = .idle ∧
      (withEvents .idle (sampleCall.map .command)).events = sampleCall.map .command ++ []) ∧
    ([0x60#8] : List Byte).length < 2 ^ 61 ∧
    (∀ c ∈ [0x4000#16, 0x401F#16, 0x5000#16, 0x503F#16], IsRead c) ∧
    sampleCall.filter (fun c => c ≠ statWord) =
      callWords [0x60#8] ++ [0x4000#16, 0x401F#16, 0x5000#16, 0x503F#16] := by
  refine ⟨⟨statusOk_withEvents _ _, rfl, rfl⟩, ⟨statusOk_withEvents _ _, rfl, rfl⟩, by decide, ?_, by decide⟩
  simp [IsRead]

/-- Two engines that differ in every location that holds no value. -/
theorem test_witness_UndefinedLocationsNeverMatter :
    (AgreeWhereDefined { absorbed abc with events := [.command 0x3000#16] }
        { absorbed abc with v := iv, w := k, digest := Vector.replicate 32 1, events := [.command 0x3000#16] } ∧
      { absorbed abc with events := [.command 0x3000#16] }.events = .command 0x3000#16 :: []) ∧
    (AgreeWhereDefined { digestHeld with events := [.command 0x401F#16] }
        { digestHeld with h := iv, n := 5, len := 6, events := [.command 0x401F#16] } ∧
      { digestHeld with events := [.command 0x401F#16] }.events = .command 0x401F#16 :: []) ∧
    ((withEvents .absorb [.reset]).events = .reset :: [] ∧ (withEvents .fault [.reset]).events = .reset :: []) :=
  ⟨⟨⟨rfl, rfl, fun _ => ⟨rfl, rfl, rfl, fun _ _ => rfl⟩, fun h => nomatch h⟩, rfl⟩,
    ⟨⟨rfl, rfl, (fun h => nomatch h), fun _ => rfl⟩, rfl⟩, rfl, rfl⟩

/-- Two engines in ABSORB that differ in internal locations, with LEN not at its greatest value and with LEN there,
and two in DONE with one digest. -/
theorem test_witness_InternalStateNeverExposed :
    ((absorbed abc).phase = (nearlyFull 63).phase ∧ (absorbed abc).cause = (nearlyFull 63).cause ∧
      ((absorbed abc).phase = .done → (absorbed abc).digest = (nearlyFull 63).digest) ∧
      ((absorbed abc).len = maxLen ↔ (nearlyFull 63).len = maxLen)) ∧
    ((longCall maxLen).len = maxLen ∧ { longCall maxLen with h := iv, n := 63#6 }.len = maxLen) ∧
    (digestHeld.phase = .done ∧ digestHeld.digest = { digestHeld with h := iv }.digest) ∧
    (withEvents .done [.command 0x401F#16]).events = .command 0x401F#16 :: [] :=
  ⟨⟨rfl, rfl, (fun h => nomatch h), by decide⟩, ⟨rfl, rfl⟩, ⟨rfl, rfl⟩, rfl⟩

/-- An illegal word issues DISCARD alone, and nothing in phase FAULT (40_commands.md R101). -/
theorem test_issuedByWord_illegal :
    issuedByWord 0x4020#16 (inPhase .done) = [.discard] ∧ issuedByWord 0x4020#16 (inPhase .fault) = [] := by decide

theorem test_witness_MicroOperationCounts :
    (inPhase .fault).phase = .fault ∧
    ((inPhase .idle).phase ≠ .fault ∧ isInstr (decodeCommand 0x5040#16) = false) ∧
    decodeCommand 0x503F#16 = .ok (.rdhx 63#6) ∧
    ((withEvents .absorb [.command 0x0000#16]).events = .command 0x0000#16 :: [] ∧
      (withEvents .absorb [.command 0x0000#16]).phase ≠ .fault) ∧
    ((withEvents .absorb [.command 0x20FF#16]).events = .command 0x20FF#16 :: [] ∧
      (withEvents .absorb [.command 0x20FF#16]).phase ≠ .fault) ∧
    ((inPhase .idle).phase ≠ .fault ∧ commandFaults .finish (inPhase .idle) = true) ∧
    (inPhase .done).phase = .done ∧
    ((nearlyFull 62).phase = .absorb ∧ (nearlyFull 62).len ≠ maxLen ∧ (nearlyFull 62).n.toNat < 63) ∧
    ((nearlyFull 63).phase = .absorb ∧ (nearlyFull 63).len ≠ maxLen ∧ ¬ (nearlyFull 63).n.toNat < 63) ∧
    ((nearlyFull 55).phase = .absorb ∧ (nearlyFull 55).n.toNat ≤ 55) ∧
    ((nearlyFull 56).phase = .absorb ∧ ¬ (nearlyFull 56).n.toNat ≤ 55) :=
  ⟨rfl, ⟨by decide, by decide⟩, by decide, ⟨rfl, by decide⟩, ⟨rfl, by decide⟩, ⟨by decide, rfl⟩, rfl,
    ⟨rfl, by decide, by decide⟩, ⟨rfl, by decide, by decide⟩, ⟨rfl, by decide⟩, rfl, by decide⟩

theorem test_witness_IndependentMicroOperationsCommute :
    (16 ≤ (16#6).toNat ∧ 16#6 ≠ 15#6) ∧ (16 ≤ (63#6).toNat ∧ 63#6 ≠ 62#6) := by decide

theorem test_witness_AssemblerProducesLegalWords :
    assembleLine "STAT".toList = some [.command 0x6000#16] ∧
    assembleLine ".word 0x0000".toList = some [.command 0x0000#16] := by decide

theorem test_witness_AssemblerExpandsHash :
    ∀ x ∈ [' ', 'a', '~'], 0x20 ≤ x.toNat ∧ x.toNat ≤ 0x7E ∧ x.toNat ≠ 0x22 := by simp

end Sys2Proof.Tests
end

