-- ==== Sys2Proof/Proofs/StateTables.lean ====
section
/-! PROOFS. The state's view STATUS and its constants IV (spec/10_state.md R21 to R23, R31). -/

namespace Sys2Proof.Proofs
open Sys2Proof.Machine

/-! ### STATUS (spec/10_state.md R31) -/

/-- R31: the concatenation read as a number. -/
theorem status_toNat (s : State) : (status s).toNat = 4 * s.cause.code.toNat + s.phase.code.toNat := by
  have hphase : s.phase.code.toNat < 2 ^ 2 := s.phase.code.isLt
  rw [status, BitVec.toNat_append, BitVec.toNat_append, ← Nat.shiftLeft_add_eq_or_of_lt hphase,
    Nat.shiftLeft_eq]
  simp [Nat.mul_comm]

/-- Outside FAULT no cause is recorded, so STATUS is the phase alone (R22). -/
theorem status_of_phase_ne_fault {s : State} (hok : StatusOk s) (hp : s.phase ≠ .fault) :
    status s = 0b000#3 ++ Cause.none.code ++ s.phase.code := by
  rw [status, hok.mpr hp]

/-- In FAULT a cause is recorded (R22). -/
theorem cause_ne_none_of_phase_fault {s : State} (hok : StatusOk s) (hp : s.phase = .fault) :
    s.cause ≠ .none :=
  fun hc => hok.mp hc hp

/-- Settles O14: the value by R31's concatenation, the six values by the phase and, in FAULT, by the cause. -/
theorem statusByteValues : Obligations.StatusByteValues := by
  refine ⟨⟨rfl, rfl, rfl, rfl⟩, ⟨rfl, rfl, rfl, rfl⟩, fun s => ⟨status_toNat s, fun hok => ?_⟩⟩
  cases hp : s.phase with
  | idle => simp [status_of_phase_ne_fault hok, hp, Cause.code, Phase.code]
  | absorb => simp [status_of_phase_ne_fault hok, hp, Cause.code, Phase.code]
  | done => simp [status_of_phase_ne_fault hok, hp, Cause.code, Phase.code]
  | fault =>
    cases hc : s.cause with
    | none => exact absurd hc (cause_ne_none_of_phase_fault hok hp)
    | illegalCmd => simp [status, hp, hc, Cause.code, Phase.code]
    | sequence => simp [status, hp, hc, Cause.code, Phase.code]
    | length => simp [status, hp, hc, Cause.code, Phase.code]

/-! ### The initialisation constants (spec/10_state.md R23) -/

/-- A prime with exactly `n` primes below it is the `n`-th prime, counting from 0. -/
theorem nth_prime_eq_of_count {p n : Nat} (hp : p.Prime) (hcount : Nat.count Nat.Prime p = n) :
    Nat.nth Nat.Prime n = p :=
  hcount ▸ Nat.nth_count hp

/-- The first eight primes, the radicands of IV (R23). -/
def ivPrime : Vector Nat 8 := #v[2, 3, 5, 7, 11, 13, 17, 19]

theorem nth_prime_eq_ivPrime (i : Fin 8) : Nat.nth Nat.Prime i.val = ivPrime[i] := by
  have htable : ∀ i : Fin 8, (ivPrime[i]).Prime ∧ Nat.count Nat.Prime ivPrime[i] = i.val := by decide
  obtain ⟨hprime, hcount⟩ := htable i
  exact nth_prime_eq_of_count hprime hcount

/-- The integer parts of the square roots of the first eight primes, the bits that IV leaves out. -/
def ivRootWhole : Vector Nat 8 := #v[1, 1, 2, 2, 3, 3, 4, 4]

/-- The root of R23 with 32 fraction bits: the whole part above, IV as the fraction. -/
def ivRoot (i : Fin 8) : Nat := 2 ^ 32 * ivRootWhole[i] + (iv[i]).toNat

theorem ivRoot_mod (i : Fin 8) : ivRoot i % 2 ^ 32 = (iv[i]).toNat := by
  rw [ivRoot, Nat.mul_add_mod, Nat.mod_eq_of_lt (iv[i]).isLt]

/-- `ivRoot i` is the floor of the square root of the prime scaled by 2^64. -/
theorem ivRoot_bounds :
    ∀ i : Fin 8, ivRoot i ^ 2 ≤ ivPrime[i] * 2 ^ 64 ∧ ivPrime[i] * 2 ^ 64 < (ivRoot i + 1) ^ 2 := by
  decide

/-- Settles O44: the root is `ivRoot i`, whose last 32 bits are IV[i]. -/
theorem initialConstantsAreSquareRoots : Obligations.InitialConstantsAreSquareRoots := by
  intro i
  obtain ⟨hfloor, hceil⟩ := ivRoot_bounds i
  rw [nth_prime_eq_ivPrime]
  exact ⟨ivRoot i, hfloor, hceil, (ivRoot_mod i).symm⟩

end Sys2Proof.Proofs
end

