-- ==== Sys2Proof/Proofs/Decoder.lean ====
section
/-! PROOFS. The decoders are the inverses of the encoder, and the word of an instruction is its row's match plus
its operand (spec/30_encoding.md R70 to R75, R83). -/

namespace Sys2Proof.Proofs
open Sys2Proof.Machine

/-! ### The fields of a word (spec/30_encoding.md R70, R83) -/

/-- A field is its high bits beside its low bits. -/
theorem high_append_low {k n : Nat} (x : BitVec (k + n)) : x.extractLsb' n k ++ x.extractLsb' 0 n = x := by
  rw [BitVec.extractLsb'_append_extractLsb'_eq_extractLsb' (Nat.zero_add n).symm, BitVec.extractLsb'_eq_self]

/-- A field whose high bits are zero is its low bits under zeros (the sub-forms of R71). -/
theorem zero_append_low {k n : Nat} {x : BitVec (k + n)} (h : x.extractLsb' n k = 0#k) :
    0#k ++ x.extractLsb' 0 n = x := by
  rw [← h, high_append_low]

@[simp] theorem cmdOp_commandWord (op : BitVec 4) (arg : BitVec 8) : cmdOp (commandWord op arg) = op := by
  rw [cmdOp, commandWord, BitVec.extractLsb'_append_eq_of_le (by decide)]
  exact BitVec.extractLsb'_append_eq_left

@[simp] theorem cmdRsv_commandWord (op : BitVec 4) (arg : BitVec 8) : cmdRsv (commandWord op arg) = 0#4 := by
  rw [cmdRsv, commandWord, BitVec.extractLsb'_append_eq_of_le (by decide)]
  exact BitVec.extractLsb'_append_eq_right

@[simp] theorem cmdArg_commandWord (op : BitVec 4) (arg : BitVec 8) : cmdArg (commandWord op arg) = arg :=
  BitVec.extractLsb'_append_eq_right

theorem commandWord_fields {c : BitVec 16} (hrsv : cmdRsv c = 0#4) :
    commandWord (cmdOp c) (cmdArg c) = c := by
  have hhigh : cmdOp c ++ cmdRsv c = c.extractLsb' 8 8 :=
    BitVec.extractLsb'_append_extractLsb'_eq_extractLsb' (start₁ := 8) (len₁ := 4) rfl
  rw [commandWord, ← hrsv, hhigh]
  exact high_append_low (k := 8) (n := 8) c

@[simp] theorem ctlUcode_controlWord (ucode : BitVec 4) (uidx : BitVec 6) :
    ctlUcode (controlWord ucode uidx) = ucode :=
  BitVec.extractLsb'_append_eq_left

@[simp] theorem ctlUidx_controlWord (ucode : BitVec 4) (uidx : BitVec 6) :
    ctlUidx (controlWord ucode uidx) = uidx :=
  BitVec.extractLsb'_append_eq_right

theorem controlWord_fields (u : BitVec 10) : controlWord (ctlUcode u) (ctlUidx u) = u :=
  high_append_low (k := 4) (n := 6) u

/-! ### Decoding is the inverse of encoding (spec/30_encoding.md R75, R83) -/

theorem decodeNoOperand_eq_ok_iff {i j : Instr} {arg : BitVec 8} :
    decodeNoOperand i arg = .ok j ↔ arg = 0#8 ∧ i = j := by
  simp [decodeNoOperand, ite_eq_iff]

theorem decodeNoIndex_eq_ok_iff {i j : Instr} {uidx : BitVec 6} :
    decodeNoIndex i uidx = .ok j ↔ uidx = 0#6 ∧ i = j := by
  simp [decodeNoIndex, ite_eq_iff]

theorem decodeCommandWith_of_encode {hasHex : Bool} {c : BitVec 16} {i : Instr}
    (hc : encode i = .command c) (hwf : i.wellFormedWith hasHex = true) :
    decodeCommandWith hasHex c = .ok i := by
  cases i with
  | start | finish | stat | data b => cases hc; simp [decodeCommandWith, decodeNoOperand]
  | rddg x =>
    cases hc
    simp [decodeCommandWith, BitVec.extractLsb'_append_eq_left (w := 3) (w' := 5),
      BitVec.extractLsb'_append_eq_right (w := 3) (w' := 5)]
  | rdhx x =>
    cases hc
    have hhex : hasHex = true := hwf
    simp [decodeCommandWith, hhex, BitVec.extractLsb'_append_eq_left (w := 2) (w' := 6),
      BitVec.extractLsb'_append_eq_right (w := 2) (w' := 6)]
  | _ => cases hc

theorem encode_eq_command_of_fields {i : Instr} {c : BitVec 16} {op : BitVec 4} {arg : BitVec 8}
    (hi : encode i = .command (commandWord op arg)) (hrsv : cmdRsv c = 0x0#4) (hop : cmdOp c = op)
    (harg : cmdArg c = arg) : encode i = .command c := by
  rw [hi, ← hop, ← harg, commandWord_fields hrsv]

theorem encode_of_decodeCommandWith {hasHex : Bool} {c : BitVec 16} {i : Instr}
    (h : decodeCommandWith hasHex c = .ok i) :
    encode i = .command c ∧ i.wellFormedWith hasHex = true := by
  simp only [decodeCommandWith, ite_eq_iff, decodeNoOperand_eq_ok_iff, Except.ok.injEq, reduceCtorEq,
    and_false, or_false, false_or, not_ne_iff] at h
  obtain ⟨hrsv, h⟩ := h
  rcases h with ⟨hop, harg, rfl⟩ | ⟨-, ⟨hop, rfl⟩ | ⟨-, ⟨hop, harg, rfl⟩ | ⟨-, ⟨hop, hhigh, rfl⟩ |
    ⟨-, ⟨hop, hhex, hhigh, rfl⟩ | ⟨-, hop, harg, rfl⟩⟩⟩⟩⟩
  · exact ⟨encode_eq_command_of_fields rfl hrsv hop harg, rfl⟩
  · exact ⟨encode_eq_command_of_fields rfl hrsv hop rfl, rfl⟩
  · exact ⟨encode_eq_command_of_fields rfl hrsv hop harg, rfl⟩
  · exact ⟨encode_eq_command_of_fields rfl hrsv hop (zero_append_low hhigh).symm, rfl⟩
  · exact ⟨encode_eq_command_of_fields rfl hrsv hop (zero_append_low hhigh).symm,
      Bool.eq_true_of_not_eq_false hhex⟩
  · exact ⟨encode_eq_command_of_fields rfl hrsv hop harg, rfl⟩

/-- The command decoder answers exactly the instruction whose word it is given, where the machine has it. -/
theorem decodeCommandWith_eq_ok_iff {hasHex : Bool} {c : BitVec 16} {i : Instr} :
    decodeCommandWith hasHex c = .ok i ↔ encode i = .command c ∧ i.wellFormedWith hasHex = true :=
  ⟨encode_of_decodeCommandWith, fun ⟨hc, hwf⟩ => decodeCommandWith_of_encode hc hwf⟩

theorem decodeControl_of_encode {u : BitVec 10} {i : Instr} (hu : encode i = .control u)
    (hwf : i.WellFormed) : decodeControl u = .ok i := by
  cases i with
  | start | data _ | finish | rddg _ | rdhx _ | stat => cases hu
  | padl x =>
    cases hu
    simp [decodeControl, BitVec.extractLsb'_append_eq_left (w := 3) (w' := 3),
      BitVec.extractLsb'_append_eq_right (w := 3) (w' := 3)]
  | ldw t =>
    cases hu
    simp [decodeControl, BitVec.extractLsb'_append_eq_left (w := 2) (w' := 4),
      BitVec.extractLsb'_append_eq_right (w := 2) (w' := 4)]
  | exp t =>
    cases hu
    simpa [decodeControl, Instr.WellFormed, Instr.wellFormedWith] using hwf
  | _ => cases hu; simp [decodeControl, decodeNoIndex]

theorem encode_eq_control_of_fields {i : Instr} {u : BitVec 10} {ucode : BitVec 4} {uidx : BitVec 6}
    (hi : encode i = .control (controlWord ucode uidx)) (hucode : ctlUcode u = ucode)
    (huidx : ctlUidx u = uidx) : encode i = .control u := by
  rw [hi, ← hucode, ← huidx, controlWord_fields]

theorem encode_of_decodeControl {u : BitVec 10} {i : Instr} (h : decodeControl u = .ok i) :
    encode i = .control u := by
  simp only [decodeControl, ite_eq_iff, decodeNoIndex_eq_ok_iff, Except.ok.injEq, reduceCtorEq, and_false,
    or_false] at h
  rcases h with ⟨hcode, hidx, rfl⟩ | ⟨-, ⟨hcode, hidx, rfl⟩ | ⟨-, ⟨hcode, hidx, rfl⟩ | ⟨-, ⟨hcode, hidx, rfl⟩ |
    ⟨-, ⟨hcode, hhigh, rfl⟩ | ⟨-, ⟨hcode, hhigh, rfl⟩ | ⟨-, ⟨hcode, -, rfl⟩ | ⟨-, ⟨hcode, hidx, rfl⟩ |
    ⟨-, ⟨hcode, rfl⟩ | ⟨-, ⟨hcode, hidx, rfl⟩ | ⟨-, ⟨hcode, hidx, rfl⟩ | ⟨-, hcode, hidx, rfl⟩⟩⟩⟩⟩⟩⟩⟩⟩⟩⟩
  · exact encode_eq_control_of_fields rfl hcode hidx
  · exact encode_eq_control_of_fields rfl hcode hidx
  · exact encode_eq_control_of_fields rfl hcode hidx
  · exact encode_eq_control_of_fields rfl hcode hidx
  · exact encode_eq_control_of_fields rfl hcode (zero_append_low hhigh).symm
  · exact encode_eq_control_of_fields rfl hcode (zero_append_low hhigh).symm
  · exact encode_eq_control_of_fields rfl hcode rfl
  · exact encode_eq_control_of_fields rfl hcode hidx
  · exact encode_eq_control_of_fields rfl hcode rfl
  · exact encode_eq_control_of_fields rfl hcode hidx
  · exact encode_eq_control_of_fields rfl hcode hidx
  · exact encode_eq_control_of_fields rfl hcode hidx

/-- The control-word decoder answers exactly the well-formed instruction whose word it is given. -/
theorem decodeControl_eq_ok_iff {u : BitVec 10} {i : Instr} :
    decodeControl u = .ok i ↔ encode i = .control u ∧ i.WellFormed :=
  ⟨fun h => ⟨encode_of_decodeControl h, (decodeControl_ok h).2⟩,
    fun ⟨hu, hwf⟩ => decodeControl_of_encode hu hwf⟩

/-! ### The word of an instruction as a number (spec/30_encoding.md R74, R83) -/

/-- The operand of an instruction as an unsigned number, 0 where it has none (R73, R83). -/
def operandNumber : Instr → Nat
  | .data b => b.toNat
  | .rddg i => i.toNat
  | .rdhx j => j.toNat
  | .padl i => i.toNat
  | .ldw t => t.toNat
  | .exp t => t.toNat
  | .rnd t => t.toNat
  | .start | .finish | .stat | .init | .push | .padm | .padz | .ldv | .acc | .ser | .discard => 0

theorem toNat_append_eq_add {m n : Nat} (x : BitVec m) (y : BitVec n) :
    (x ++ y).toNat = 2 ^ n * x.toNat + y.toNat := by
  rw [BitVec.toNat_append, ← Nat.shiftLeft_add_eq_or_of_lt y.isLt, Nat.shiftLeft_eq, Nat.mul_comm]

theorem toNat_cmdOp (c : BitVec 16) : (cmdOp c).toNat = c.toNat / 4096 := by
  rw [cmdOp, BitVec.extractLsb'_toNat, Nat.shiftRight_eq_div_pow]
  omega

theorem toNat_commandWord (op : BitVec 4) (arg : BitVec 8) :
    (commandWord op arg).toNat = 4096 * op.toNat + arg.toNat := by
  rw [commandWord, toNat_append_eq_add, toNat_append_eq_add, BitVec.toNat_ofNat]
  omega

theorem toNat_controlWord (ucode : BitVec 4) (uidx : BitVec 6) :
    (controlWord ucode uidx).toNat = 64 * ucode.toNat + uidx.toNat :=
  toNat_append_eq_add ucode uidx

/-- A command's word is its row's match plus its operand. -/
theorem encode_eq_command_iff {i : Instr} {c : BitVec 16} :
    encode i = .command c ↔ IsCommand i = true ∧ c.toNat = i.tableMatch + operandNumber i := by
  cases i <;>
    simp [encode, IsCommand, ← BitVec.toNat_inj, toNat_commandWord, toNat_append_eq_add (n := 5) 0#3,
      toNat_append_eq_add (n := 6) 0#2, Instr.tableMatch, operandNumber, eq_comm]

/-- A micro-operation's word is its row's match plus its operand. -/
theorem encode_eq_control_iff {i : Instr} {u : BitVec 10} :
    encode i = .control u ↔ IsCommand i = false ∧ u.toNat = i.tableMatch + operandNumber i := by
  cases i <;>
    simp [encode, IsCommand, ← BitVec.toNat_inj, toNat_controlWord, toNat_append_eq_add (n := 3) 0#3,
      toNat_append_eq_add (n := 4) 0#2, Instr.tableMatch, operandNumber, eq_comm]

theorem decodeCommandWith_eq_ok_iff_toNat {hasHex : Bool} {c : BitVec 16} {i : Instr} :
    decodeCommandWith hasHex c = .ok i ↔
      (IsCommand i = true ∧ c.toNat = i.tableMatch + operandNumber i) ∧ i.wellFormedWith hasHex = true := by
  rw [decodeCommandWith_eq_ok_iff, encode_eq_command_iff]

/-- The row of a command: its words, by the operand. -/
theorem decodeCommand_row {c : BitVec 16} {i : Instr} (hi : IsCommand i = true) (hwf : i.WellFormed) :
    decodeCommand c = .ok i ↔ c.toNat = i.tableMatch + operandNumber i := by
  rw [decodeCommand, decodeCommandWith_eq_ok_iff_toNat, and_iff_left hwf, and_iff_right hi]

/-- The row of a micro-operation: its control words, by the index. -/
theorem decodeControl_row {u : BitVec 10} {i : Instr} (hi : IsCommand i = false) (hwf : i.WellFormed) :
    decodeControl u = .ok i ↔ u.toNat = i.tableMatch + operandNumber i := by
  rw [decodeControl_eq_ok_iff, encode_eq_control_iff, and_iff_left hwf, and_iff_right hi]

end Sys2Proof.Proofs
end

