-- ==== Sys2Proof/Proofs/Encoding.lean ====
section
/-! PROOFS. The tables of control words and command words, legal and illegal (spec/30_encoding.md R74 to R84). -/

namespace Sys2Proof.Proofs
open Sys2Proof.Machine

/-! ### The control words (spec/30_encoding.md R83) -/

/-- Settles O11: the row of each micro-operation, in which only EXP restricts its index further (R84). -/
theorem controlWordTable : Obligations.ControlWordTable := by
  intro u
  have hexp (t : BitVec 6) :
      decodeControl u = .ok (.exp t) ↔ u.toNat = 0x1C0 + t.toNat ∧ 16 ≤ t.toNat := by
    rw [decodeControl_eq_ok_iff, encode_eq_control_iff]
    simp [IsCommand, encode, Instr.tableMatch, operandNumber, Instr.WellFormed, Instr.wellFormedWith]
  exact ⟨decodeControl_row rfl rfl, decodeControl_row rfl rfl, decodeControl_row rfl rfl,
    decodeControl_row rfl rfl, fun _ => decodeControl_row rfl rfl, fun _ => decodeControl_row rfl rfl, hexp,
    decodeControl_row rfl rfl, fun _ => decodeControl_row rfl rfl, decodeControl_row rfl rfl,
    decodeControl_row rfl rfl, decodeControl_row rfl rfl, fun _ h => (decodeControl_ok h).1⟩

/-! ### The patterns of the command words (spec/30_encoding.md R74) -/

/-- A mask that clears the low `k` bits selects `2 ^ k` words in a row. -/
theorem and_highMask_eq_iff {w k : Nat} {c m : BitVec w} (hm : 2 ^ k ∣ m.toNat) :
    c &&& (BitVec.allOnes w <<< k) = m ↔ m.toNat ≤ c.toNat ∧ c.toNat < m.toNat + 2 ^ k := by
  have hclear : (c >>> k <<< k).toNat = c.toNat / 2 ^ k * 2 ^ k := by
    rw [BitVec.toNat_shiftLeft, BitVec.toNat_ushiftRight, Nat.shiftLeft_eq, Nat.shiftRight_eq_div_pow]
    exact Nat.mod_eq_of_lt (lt_of_le_of_lt (Nat.div_mul_le_self _ _) c.isLt)
  obtain ⟨q, hq⟩ := hm
  have hpos : 0 < 2 ^ k := Nat.two_pow_pos k
  rw [← BitVec.shiftLeft_ushiftRight, ← BitVec.toNat_inj, hclear, hq, Nat.mul_comm, Nat.mul_right_inj hpos.ne',
    Nat.div_eq_iff hpos, Nat.mul_comm q]
  omega

/-- A word is a row's match plus an operand where the mask selects it and its low bits are the operand (R73). -/
theorem toNat_eq_match_add_operand_iff {w k : Nat} {c m : BitVec w} {b : BitVec k} (hm : 2 ^ k ∣ m.toNat) :
    c.toNat = m.toNat + b.toNat ↔
      c &&& (BitVec.allOnes w <<< k) = m ∧ b.toNat = c.toNat % 2 ^ k := by
  rw [and_highMask_eq_iff hm]
  have hb := b.isLt
  obtain ⟨q, hq⟩ := hm
  constructor
  · intro hc
    rw [hc, hq, Nat.mul_add_mod, Nat.mod_eq_of_lt hb]
    omega
  · rintro ⟨⟨hlow, hhigh⟩, hmod⟩
    obtain ⟨r, hr⟩ := Nat.exists_eq_add_of_le hlow
    rw [hr, hq, Nat.mul_add_mod, Nat.mod_eq_of_lt (by omega)] at hmod
    omega

theorem and_fullMask_eq_iff {c m : BitVec 16} : c &&& 0xFFFF#16 = m ↔ c.toNat = m.toNat := by
  rw [show 0xFFFF#16 = BitVec.allOnes 16 from rfl, BitVec.and_allOnes, BitVec.toNat_inj]

/-! ### Legal and illegal command words (spec/30_encoding.md R74, R76) -/

theorem isInstr_eq_true_iff {r : Except DecodeError Instr} : isInstr r = true ↔ ∃ i, r = .ok i := by
  cases r <;> simp [isInstr]

theorem isInstr_eq_false_iff {r : Except DecodeError Instr} : isInstr r = false ↔ ∃ e, r = .error e := by
  cases r <;> simp [isInstr]

/-- The legal words are six runs of numbers, the fifth on a machine with the hex helper only (R74, R79). -/
theorem isInstr_decodeCommandWith_iff {hasHex : Bool} {c : BitVec 16} :
    isInstr (decodeCommandWith hasHex c) = true ↔
      c.toNat = 0x1000 ∨ (0x2000 ≤ c.toNat ∧ c.toNat < 0x2100) ∨ c.toNat = 0x3000 ∨
      (0x4000 ≤ c.toNat ∧ c.toNat < 0x4020) ∨
      (hasHex = true ∧ 0x5000 ≤ c.toNat ∧ c.toNat < 0x5040) ∨ c.toNat = 0x6000 := by
  simp only [isInstr_eq_true_iff, decodeCommandWith_eq_ok_iff_toNat]
  constructor
  · rintro ⟨i, ⟨hi, hc⟩, hwf⟩
    cases i with
    | start | finish | stat =>
      simp only [Instr.tableMatch, operandNumber] at hc
      omega
    | data x | rddg x =>
      have hx := x.isLt
      simp only [Instr.tableMatch, operandNumber] at hc
      omega
    | rdhx x =>
      have hx := x.isLt
      simp only [Instr.tableMatch, operandNumber] at hc
      exact .inr (.inr (.inr (.inr (.inl ⟨hwf, by omega⟩))))
    | _ => cases hi
  · rintro (hc | hc | hc | hc | ⟨hhex, hc⟩ | hc)
    · exact ⟨.start, ⟨rfl, hc⟩, rfl⟩
    · refine ⟨.data (BitVec.ofNat 8 (c.toNat - 0x2000)), ⟨rfl, ?_⟩, rfl⟩
      simp only [Instr.tableMatch, operandNumber, BitVec.toNat_ofNat]
      omega
    · exact ⟨.finish, ⟨rfl, hc⟩, rfl⟩
    · refine ⟨.rddg (BitVec.ofNat 5 (c.toNat - 0x4000)), ⟨rfl, ?_⟩, rfl⟩
      simp only [Instr.tableMatch, operandNumber, BitVec.toNat_ofNat]
      omega
    · refine ⟨.rdhx (BitVec.ofNat 6 (c.toNat - 0x5000)), ⟨rfl, ?_⟩, hhex⟩
      simp only [Instr.tableMatch, operandNumber, BitVec.toNat_ofNat]
      omega
    · exact ⟨.stat, ⟨rfl, hc⟩, rfl⟩

/-- The numbers of the legal command words, the rows of R74. -/
def commandNumbers : Finset Nat :=
  Finset.Ico 0x1000 0x1001 ∪ Finset.Ico 0x2000 0x2100 ∪ Finset.Ico 0x3000 0x3001 ∪
    Finset.Ico 0x4000 0x4020 ∪ Finset.Ico 0x5000 0x5040 ∪ Finset.Ico 0x6000 0x6001

theorem card_union_Ico {s : Finset Nat} {a b : Nat} (h : ∀ n ∈ s, n < a) :
    (s ∪ Finset.Ico a b).card = s.card + (b - a) := by
  rw [Finset.card_union_of_disjoint, Nat.card_Ico]
  exact Finset.disjoint_left.mpr fun n hs hn => (Finset.mem_Ico.mp hn).1.not_gt (h n hs)

theorem card_commandNumbers : commandNumbers.card = 355 := by
  rw [commandNumbers, card_union_Ico, card_union_Ico, card_union_Ico, card_union_Ico, card_union_Ico,
    Nat.card_Ico]
  all_goals simp only [Finset.mem_union, Finset.mem_Ico]; omega

theorem image_toNat_legalWords :
    (Finset.univ.filter fun c : BitVec 16 => isInstr (decodeCommand c) = true).image BitVec.toNat =
      commandNumbers := by
  ext n
  simp only [Finset.mem_image, Finset.mem_filter, Finset.mem_univ, true_and, decodeCommand, Config.hasHex,
    isInstr_decodeCommandWith_iff, commandNumbers, Finset.mem_union, Finset.mem_Ico]
  constructor
  · rintro ⟨c, hc, rfl⟩
    omega
  · intro hn
    have hword : (BitVec.ofNat 16 n).toNat = n := by
      rw [BitVec.toNat_ofNat, Nat.mod_eq_of_lt (by omega)]
    exact ⟨BitVec.ofNat 16 n, by rw [hword]; omega, hword⟩

theorem card_legalWords :
    (Finset.univ.filter fun c : BitVec 16 => isInstr (decodeCommand c) = true).card = 355 := by
  rw [← card_commandNumbers, ← image_toNat_legalWords,
    Finset.card_image_of_injective _ BitVec.toNat_injective]

theorem card_illegalWords :
    (Finset.univ.filter fun c : BitVec 16 => isInstr (decodeCommand c) = false).card = 65181 := by
  have hnot : (Finset.univ.filter fun c : BitVec 16 => isInstr (decodeCommand c) = false) =
      Finset.univ.filter fun c : BitVec 16 => ¬ isInstr (decodeCommand c) = true :=
    Finset.filter_congr fun c _ => by rw [Bool.not_eq_true]
  rw [hnot, ← Finset.compl_filter, Finset.card_compl, card_legalWords, ← FinEnum.card_eq_fintypeCard,
    FinEnum.card_bitVec]
  rfl

/-- Settles O5: each row by the number of its words. -/
theorem commandWordPatterns : Obligations.CommandWordPatterns := by
  refine ⟨fun c => ⟨?_, fun b => ?_, ?_, fun i => ?_, fun j => ?_, ?_, fun i => decodeCommand_ok⟩,
    fun c => ⟨and_fullMask_eq_iff, and_highMask_eq_iff (k := 8) (by decide), and_fullMask_eq_iff,
      and_highMask_eq_iff (k := 5) (by decide), and_highMask_eq_iff (k := 6) (by decide),
      and_fullMask_eq_iff⟩, card_legalWords, card_illegalWords⟩
  · exact (decodeCommand_row rfl rfl).trans (and_fullMask_eq_iff (m := 0x1000#16)).symm
  · exact (decodeCommand_row rfl rfl).trans (toNat_eq_match_add_operand_iff (m := 0x2000#16) (by decide))
  · exact (decodeCommand_row rfl rfl).trans (and_fullMask_eq_iff (m := 0x3000#16)).symm
  · exact (decodeCommand_row rfl rfl).trans (toNat_eq_match_add_operand_iff (m := 0x4000#16) (by decide))
  · exact (decodeCommand_row rfl rfl).trans (toNat_eq_match_add_operand_iff (m := 0x5000#16) (by decide))
  · exact (decodeCommand_row rfl rfl).trans (and_fullMask_eq_iff (m := 0x6000#16)).symm

/-! ### Illegal words in the machine (spec/30_encoding.md R76, 60_exceptions.md R179) -/

theorem step_illegal {s : State} {c : BitVec 16} {rest : List Event} (hs : s.events = .command c :: rest)
    (hc : isInstr (decodeCommand c) = false) :
    step s = .next (illegalCommand { s with cmdPort := c, events := rest }) := by
  obtain ⟨e, he⟩ := isInstr_eq_false_iff.mp hc
  simp [step, hs, he]

theorem illegalCommand_of_fault {s : State} (hp : s.phase = .fault) : illegalCommand s = respondStatus s :=
  if_pos hp

theorem illegalCommand_of_ne_fault {s : State} (hp : s.phase ≠ .fault) :
    illegalCommand s = raiseFault .illegalCmd s :=
  if_neg hp

theorem faultTaken_raiseFault (c : Cause) (s : State) : FaultTaken c s (raiseFault c s) :=
  ⟨rfl, rfl, rfl, rfl, rfl⟩

/-- Settles O6: the six classes are the numbers outside the runs of legal words. -/
theorem illegalWordsFault : Obligations.IllegalWordsFault := by
  constructor
  · intro hasHex c
    have hlt := c.isLt
    rw [← Bool.not_eq_true, isInstr_decodeCommandWith_iff]
    cases hasHex with
    | false => simp only [Bool.false_eq_true, false_and, false_or, true_and]; omega
    | true => simp only [Bool.true_eq_false, false_and, or_false, true_and]; omega
  · intro s c rest hs hc
    refine ⟨_, step_illegal hs hc, fun hp => ?_, fun hp => ?_⟩
    · rw [illegalCommand_of_ne_fault (by exact hp)]
      exact ⟨faultTaken_raiseFault _ _, status_raiseFault _ _⟩
    · rw [illegalCommand_of_fault (by exact hp)]
      rfl

/-- Settles O9: the decoder run on each word. -/
theorem workedEncodings : Obligations.WorkedEncodings := by
  unfold Obligations.WorkedEncodings
  decide

/-- Settles O10: the decoder reads the parameter under `op` 0x5 only. -/
theorem hexHelperParameter : Obligations.HexHelperParameter := by
  refine ⟨fun j => ?_, fun c hc => ?_, fun c hc => ?_⟩
  · rw [decodeCommandWith_eq_ok_iff_toNat, toNat_commandWord]
    refine ⟨⟨rfl, ?_⟩, rfl⟩
    rw [BitVec.toNat_setWidth_of_le (by decide)]
    rfl
  · rw [← Bool.not_eq_true, isInstr_decodeCommandWith_iff]
    simp only [Bool.false_eq_true, false_and, false_or]
    omega
  · have hop : cmdOp c ≠ 0x5#4 := fun h => hc (by rw [← toNat_cmdOp, h]; rfl)
    simp only [decodeCommandWith, if_neg hop]

end Sys2Proof.Proofs
end

