-- ==== Sys2Proof/Proofs/Commands.lean ====
section
/-! PROOFS. What the six host commands do in each phase (spec/40_commands.md R90 to R100). -/

namespace Sys2Proof.Proofs
open Sys2Proof.Machine

/-! ### A command is its effect behind the gate (spec/40_commands.md R90) -/

/-- The phases outside FAULT in which a command is legal (R98). -/
def legalIn : Instr → Phase → Bool
  | .start => fun p => p = .idle ∨ p = .done
  | .data _ | .finish => fun p => p = .absorb
  | .rddg _ | .rdhx _ => fun p => p = .done
  | _ => fun _ => true

/-- What a command does in a phase where it is legal (R92 to R96, R99). -/
def commandEffect : Instr → State → State
  | .start, s => respondStatus { undefDigest (initState s) with phase := .absorb }
  | .data b, s => if s.len = maxLen then raiseFault .length s else respondStatus (pushByte b s)
  | .finish, s => respondStatus { discardState (serialise (padding s)) with phase := .done }
  | .rddg x, s => respond (digestAt s.digest x) s
  | .rdhx x, s => respond (hexView s.digest x) s
  | _, s => respondStatus s

theorem exec_eq_gate {i : Instr} (hi : IsCommand i = true) (s : State) :
    exec i s = .next (gate (legalIn i) (commandEffect i) s) := by
  cases i with
  | start | data | finish | rddg | rdhx | stat => rfl
  | _ => cases hi

/-- A command in a phase where it is legal has its effect (R90). -/
theorem exec_of_legal {i : Instr} (hi : IsCommand i = true) {s : State} {p : Phase} (hp : s.phase = p)
    (hl : p ≠ .fault ∧ legalIn i p = true) : exec i s = .next (commandEffect i s) := by
  subst hp
  rw [exec_eq_gate hi, gate_legal hl.1 hl.2]

/-- A fault is taken and STATUS then shows its cause (spec/60_exceptions.md R179). -/
theorem raiseFault_spec (c : Cause) (s : State) :
    FaultTaken c s (raiseFault c s) ∧ status (raiseFault c s) = 0b000#3 ++ c.code ++ Phase.fault.code :=
  ⟨faultTaken_raiseFault c s, status_raiseFault c s⟩

/-- A command in a phase where it is not legal raises SEQUENCE (R90). -/
theorem exec_raises_sequence {i : Instr} (hi : IsCommand i = true) {s : State} {p : Phase}
    (hp : s.phase = p) (hl : p ≠ .fault ∧ legalIn i p = false) :
    ∃ t, exec i s = .next t ∧ FaultTaken .sequence s t ∧ status t = 0x0B#8 := by
  subst hp
  exact ⟨_, by rw [exec_eq_gate hi, gate_sequence hl.1 hl.2], raiseFault_spec .sequence s⟩

theorem step_command {s : State} {c : BitVec 16} {rest : List Event} {i : Instr}
    (hs : s.events = .command c :: rest) (hc : decodeCommand c = .ok i) :
    step s = exec i { s with cmdPort := c, events := rest } := by
  simp [step, hs, hc]

/-- Settles O17: a legal word meets the gate, an illegal word the same test. -/
theorem faultPhaseIgnoresCommands : Obligations.FaultPhaseIgnoresCommands := by
  intro s c rest hp hs
  cases hc : decodeCommand c with
  | ok i => rw [step_command hs hc, exec_in_fault (decodeCommand_ok hc) (by exact hp)]; rfl
  | error e => rw [step_illegal hs (by rw [hc]; rfl), illegalCommand_of_fault (by exact hp)]; rfl

/-! ### The table of phases (spec/40_commands.md R98) -/

theorem commandOutcome_of_not_legal {i : Instr} {s : State} (hp : s.phase ≠ .fault)
    (hl : legalIn i s.phase = false) : commandOutcome s i = (.fault, .sequence) := by
  cases hph : s.phase with
  | fault => exact absurd hph hp
  | idle | absorb | done =>
    rw [hph] at hl
    cases i with
    | start | data | finish | rddg | rdhx => simp_all [legalIn, commandOutcome]
    | _ => cases hl

theorem commandOutcome_of_legal {i : Instr} (hi : IsCommand i = true) {s : State}
    (hl : legalIn i s.phase = true) :
    ((commandEffect i s).phase, (commandEffect i s).cause) = commandOutcome s i := by
  cases i with
  | start =>
    obtain hph | hph : s.phase = .idle ∨ s.phase = .done := by simpa [legalIn] using hl
    all_goals simp [commandEffect, commandOutcome, hph]
  | data b =>
    have hph : s.phase = .absorb := by simpa [legalIn] using hl
    by_cases hlen : s.len = maxLen
    · simp only [commandEffect, commandOutcome, hph, if_pos hlen, if_pos ((len_eq_maxLen_iff s).mp hlen)]
      rfl
    · have hnat : s.len.toNat ≠ 2 ^ 61 - 1 := mt (len_eq_maxLen_iff s).mpr hlen
      simp only [commandEffect, commandOutcome, hph, if_neg hlen, if_neg hnat]
      simp [hph]
  | finish =>
    have hph : s.phase = .absorb := by simpa [legalIn] using hl
    simp [commandEffect, commandOutcome, hph]
  | rddg x | rdhx x =>
    have hph : s.phase = .done := by simpa [legalIn] using hl
    simp [commandEffect, commandOutcome, hph]
  | stat => cases hph : s.phase <;> simp [commandEffect, commandOutcome, hph]
  | _ => cases hi

/-- The table of R98, for a decoded command. -/
theorem exec_commandOutcome {i : Instr} (hi : IsCommand i = true) (s : State) :
    ∃ t, exec i s = .next t ∧ (t.phase, t.cause) = commandOutcome s i := by
  refine ⟨_, exec_eq_gate hi s, ?_⟩
  obtain ⟨hp, hg⟩ | ⟨hp, hl, hg⟩ | ⟨hp, hl, hg⟩ := gate_cases (legalIn i) (commandEffect i) s
  · simp [hg, commandOutcome, hp]
  · rw [hg, commandOutcome_of_legal hi hl]
  · simp [hg, commandOutcome_of_not_legal hp hl]

/-- The table of R98 with its column of illegal words. -/
theorem step_wordOutcome {s : State} {c : BitVec 16} {rest : List Event}
    (hs : s.events = .command c :: rest) :
    ∃ t, step s = .next t ∧ (t.phase, t.cause) = wordOutcome s c := by
  unfold wordOutcome
  cases hc : decodeCommand c with
  | ok i =>
    rw [step_command hs hc]
    exact exec_commandOutcome (decodeCommand_ok hc) _
  | error e =>
    refine ⟨_, step_illegal hs (by rw [hc]; rfl), ?_⟩
    by_cases hp : s.phase = .fault
    · simp [illegalCommand, hp]
    · simp [illegalCommand, hp]

/-- Settles O15: a decoded command by the gate's three branches, a word by its decoding. -/
theorem phaseTable : Obligations.PhaseTable := by
  refine ⟨fun s c rest hs => step_wordOutcome hs, fun s i hi => exec_commandOutcome hi s, fun s rest hs => ?_⟩
  exact ⟨hostReset { s with events := rest }, by simp [step, hs], rfl⟩

/-! ### STATUS in the response (spec/40_commands.md R91) -/

theorem respondStatus_of_status {s : State} {b : Byte} (h : status s = b) :
    respondStatus s = { s with responses := s.responses ++ [b] } := by
  rw [← h]
  rfl

theorem status_absorb {s : State} (hok : StatusOk s) (hp : s.phase = .absorb) : status s = 0x01#8 := by
  rw [status_of_phase_ne_fault hok (by simp [hp]), hp]
  rfl

/-! ### START (spec/40_commands.md R92) -/

/-- Settles O22: the effect of START, whose response is STATUS in ABSORB. -/
theorem startBeginsCall : Obligations.StartBeginsCall := by
  intro s hok
  constructor
  · intro hp
    have hl : s.phase ≠ .fault ∧ legalIn .start s.phase = true := by
      rcases hp with hp | hp <;> simp [legalIn, hp]
    refine ⟨_, exec_of_legal rfl rfl hl, ?_, rfl⟩
    have hstatus : status { undefDigest (initState s) with phase := .absorb } = 0x01#8 := by
      simp [status, hok.mpr hl.1, Cause.code, Phase.code]
    rw [commandEffect, respondStatus_of_status hstatus]
    rfl
  · intro hp
    exact exec_raises_sequence rfl hp ⟨nofun, rfl⟩

/-! ### DATA (spec/40_commands.md R93) -/

theorem toNat_fill_index_succ {n : BitVec 6} (h : n ≠ 63#6) : (n + 1).toNat = n.toNat + 1 := by
  have hlt := n.isLt
  have hne : n.toNat ≠ 63 := fun he => h (BitVec.eq_of_toNat_eq he)
  rw [BitVec.toNat_add]
  exact Nat.mod_eq_of_lt (by simp; omega)

theorem pushByte_store {b : Byte} {s : State} (hlen : s.len ≠ maxLen) (hn : s.n ≠ 63#6) :
    pushByte b s = { s with buf := setByte s.buf s.n b, n := s.n + 1, len := s.len + 1 } := by
  rw [pushByte_eq hlen, put_store (by exact hn)]

theorem pushByte_fill {b : Byte} {s : State} (hlen : s.len ≠ maxLen) (hn : s.n = 63#6) :
    pushByte b s =
      { s with
        buf := setByte s.buf s.n b
        n := 0
        len := s.len + 1
        h := compressBlock s.h (setByte s.buf s.n b)
        v := roundsOf s.h (schedule (setByte s.buf s.n b))
        w := schedule (setByte s.buf s.n b) } := by
  rw [pushByte_eq hlen, put_fill (by exact hn), compress_eq]

/-- DATA with room for a byte is PUSH and the response 0x01. -/
theorem exec_data_of_room {s : State} {b : Byte} (hok : StatusOk s) (hp : s.phase = .absorb)
    (hlen : s.len ≠ maxLen) :
    exec (.data b) s = .next { pushByte b s with responses := s.responses ++ [0x01#8] } := by
  have hstatus : status (pushByte b s) = 0x01#8 :=
    (status_congr (pushByte_phase b s) (pushByte_cause b s)).trans (status_absorb hok hp)
  rw [exec_of_legal rfl hp ⟨nofun, rfl⟩, commandEffect, if_neg hlen,
    respondStatus_of_status hstatus, pushByte_responses]

theorem exec_data_of_full {s : State} {b : Byte} (hp : s.phase = .absorb) (hlen : s.len = maxLen) :
    exec (.data b) s = .next (raiseFault .length s) := by
  rw [exec_of_legal rfl hp ⟨nofun, rfl⟩, commandEffect, if_pos hlen]

/-- Settles O23: PUSH by whether the byte fills the block, and the two faults. -/
theorem dataAppendsByte : Obligations.DataAppendsByte := by
  intro s b hok
  refine ⟨fun hp hlt => ?_, fun hp hmax => ?_, fun hp => ?_⟩
  · have hlen : s.len ≠ maxLen := fun h => absurd ((len_eq_maxLen_iff s).mp h) (by omega)
    have hstored : byteAt (setByte s.buf s.n b) s.n = b := byteAt_setByte_self _ _ _
    have hkept : ∀ i, i ≠ s.n → byteAt (setByte s.buf s.n b) i = byteAt s.buf i :=
      fun _ hi => byteAt_setByte_ne _ _ hi
    by_cases hn : s.n = 63#6
    · have hnat : s.n.toNat = 63 := by rw [hn]; rfl
      refine ⟨_, exec_data_of_room hok hp hlen, ?_⟩
      rw [pushByte_fill hlen hn]
      exact ⟨len_succ_toNat hlen, hstored, hkept, fun h => absurd h (by omega), fun _ => ⟨rfl, rfl, rfl⟩⟩
    · have hnat : s.n.toNat ≠ 63 := fun h => hn (BitVec.eq_of_toNat_eq h)
      refine ⟨_, exec_data_of_room hok hp hlen, ?_⟩
      rw [pushByte_store hlen hn]
      exact ⟨len_succ_toNat hlen, hstored, hkept, fun _ => ⟨toNat_fill_index_succ hn, rfl⟩,
        fun h => absurd h hnat⟩
  · exact ⟨_, exec_data_of_full hp ((len_eq_maxLen_iff s).mpr hmax), raiseFault_spec .length s⟩
  · rcases hp with hp | hp <;> exact exec_raises_sequence rfl hp ⟨nofun, rfl⟩

/-! ### FINISH (spec/40_commands.md R94) -/

theorem runAll_append {l : List Instr} {s t : State} (h : runAll l s = .next t) (m : List Instr) :
    runAll (l ++ m) s = runAll m t := by
  induction l generalizing s with
  | nil => cases h; rfl
  | cons i l ih =>
    rw [runAll] at h
    cases hi : exec i s with
    | next u => rw [hi] at h; rw [List.cons_append, runAll, hi]; exact ih h
    | fault r => cases r
    | refused r => rw [hi] at h; cases h

/-- One micro-operation at a list of indices runs as the fold of its operation. -/
theorem runAll_map {α : Type} {f : α → Instr} {op : α → State → State}
    (h : ∀ a s, exec (f a) s = .next (op a s)) (l : List α) (s : State) :
    runAll (l.map f) s = .next (l.foldl (fun s a => op a s) s) := by
  induction l generalizing s with
  | nil => rfl
  | cons a l ih => rw [List.map_cons, runAll, h]; exact ih _

theorem runAll_replicate_padz (count : Nat) (s : State) :
    runAll (List.replicate count .padz) s = .next (Nat.iterate padZero count s) := by
  induction count generalizing s with
  | zero => rfl
  | succ c ih => exact ih (padZero s)

theorem runAll_padm (l : List Instr) (s : State) : runAll (.padm :: l) s = runAll l (padMarker s) := rfl

/-- PAD is its sequence of micro-operations (spec/41_padding.md R113). -/
theorem runAll_padSeq (s : State) : runAll (padSeq s.n) s = .next (padding s) := by
  rw [padSeq, List.cons_append, runAll_padm, runAll_append (runAll_replicate_padz _ _),
    runAll_map (op := padLengthByte) (fun _ _ => rfl)]
  unfold padding
  rfl

/-- Settles O24: FINISH is PAD, SER and DISCARD as the sequencer runs them. -/
theorem finishRunsPadSerDiscard : Obligations.FinishRunsPadSerDiscard := by
  intro s hok
  refine ⟨fun hp => ?_, fun hp => ?_⟩
  · have hcause : s.cause = .none := hok.mpr (by simp [hp])
    have hstatus : status { discardState (serialise (padding s)) with phase := .done } = 0x02#8 := by
      simp [status, hcause, Cause.code, Phase.code]
    refine ⟨padding s, discardState (serialise (padding s)), runAll_padSeq s, rfl, by simp, by simp, by simp,
      by simp, ?_⟩
    rw [exec_of_legal rfl hp ⟨nofun, rfl⟩, commandEffect, respondStatus_of_status hstatus]
    simp
  · rcases hp with hp | hp <;> exact exec_raises_sequence rfl hp ⟨nofun, rfl⟩

/-! ### The reads and STAT (spec/40_commands.md R95, R96, R99) -/

theorem getElem?_digestAt (d : Vector Byte 32) (i : BitVec 5) : d[i.toNat]? = some (digestAt d i) :=
  Vector.getElem?_eq_getElem _

/-- Settles O25: the effect of RDDG is its response. -/
theorem rddgReadsDigest : Obligations.RddgReadsDigest := by
  intro s i
  refine ⟨fun hp => ?_, fun hp => ?_⟩
  · exact ⟨_, exec_of_legal rfl hp ⟨nofun, rfl⟩, getElem?_digestAt s.digest i⟩
  · rcases hp with hp | hp <;> exact exec_raises_sequence rfl hp ⟨nofun, rfl⟩

/-- R169 in numbers. -/
theorem toNat_hexdigit (x : BitVec 4) :
    (hexdigit x).toNat = if x.toNat < 10 then 0x30 + x.toNat else 0x57 + x.toNat := by
  revert x
  decide

/-- R168 in numbers: the nibble of the byte at half the index, the high one for an even index. -/
theorem hexView_eq_hexdigit (d : Vector Byte 32) (j : BitVec 6) :
    ∃ x : BitVec 4, hexView d j = hexdigit x ∧
      x.toNat = if j.toNat % 2 = 0 then (digestAt d (j.extractLsb' 1 5)).toNat / 16
        else (digestAt d (j.extractLsb' 1 5)).toNat % 16 := by
  have hbyte := (digestAt d (j.extractLsb' 1 5)).isLt
  have heven : j.extractLsb' 0 1 = 0#1 ↔ j.toNat % 2 = 0 := by
    rw [← BitVec.toNat_inj, BitVec.extractLsb'_toNat]
    simp
  rw [hexView]
  simp only [heven]
  split
  · refine ⟨_, rfl, ?_⟩
    rw [BitVec.extractLsb'_toNat, Nat.shiftRight_eq_div_pow]
    omega
  · refine ⟨_, rfl, ?_⟩
    rw [BitVec.extractLsb'_toNat, Nat.shiftRight_zero]

/-- Settles O26: the response by the nibble, and the nibble by the parity of the index. -/
theorem rdhxReadsHexCharacter : Obligations.RdhxReadsHexCharacter := by
  intro s j
  refine ⟨fun hp => ?_, fun hp => ?_⟩
  · obtain ⟨x, hview, hx⟩ := hexView_eq_hexdigit s.digest j
    have hindex : (j.extractLsb' 1 5).toNat = j.toNat / 2 := by
      have := j.isLt
      rw [BitVec.extractLsb'_toNat, Nat.shiftRight_eq_div_pow]
      omega
    refine ⟨_, digestAt s.digest (j.extractLsb' 1 5), x.toNat,
      exec_of_legal rfl hp ⟨nofun, rfl⟩, ?_, hx, ?_⟩
    · rw [← hindex, getElem?_digestAt]
    · rw [hview, toNat_hexdigit]
  · rcases hp with hp | hp <;> exact exec_raises_sequence rfl hp ⟨nofun, rfl⟩

/-- Settles O27: STAT is legal in every phase, and in FAULT it is ignored with the same response. -/
theorem statReadsStatus : Obligations.StatReadsStatus := by
  intro s
  by_cases hp : s.phase = .fault
  · exact exec_in_fault rfl hp
  · exact exec_of_legal rfl rfl ⟨hp, rfl⟩

end Sys2Proof.Proofs
end

