-- ==== Sys2Proof/Proofs/CommandCounts.lean ====
section
/-! PROOFS. The micro-operations each command issues, and how many (spec/40_commands.md R101). -/

namespace Sys2Proof.Proofs
open Sys2Proof.Machine

/-! ### COMPRESS inside a list of stored bytes (spec/41_padding.md R111, R112) -/

theorem length_compressSeq : compressSeq.length = 130 := by
  simp [compressSeq, indices]

theorem count_acc_compressSeq : compressSeq.count .acc = 1 := by
  decide

/-- The buffer fills once for each multiple of 64 that the fill index passes. -/
theorem countP_putsIssue (p : Instr → Bool) (l : List Instr) (n : BitVec 6) :
    (putsIssue l n).countP p = l.countP p + (n.toNat + l.length) / 64 * compressSeq.countP p := by
  induction l generalizing n with
  | nil =>
    rw [List.length_nil, Nat.add_zero, Nat.div_eq_of_lt n.isLt, Nat.zero_mul]
    rfl
  | cons i l ih =>
    rw [putsIssue, List.countP_append, ih, putIssues, List.countP_cons, List.countP_cons, List.length_cons]
    by_cases hn : n = 63#6
    · have hfills : (63 + (l.length + 1)) / 64 = 1 + l.length / 64 := by omega
      simp only [hn, if_true, BitVec.reduceAdd, BitVec.reduceToNat, hfills, Nat.zero_add]
      ring
    · rw [if_neg hn, toNat_fill_index_succ hn, List.countP_nil, Nat.add_right_comm n.toNat, Nat.add_assoc n.toNat]
      ring

theorem length_putsIssue (l : List Instr) (n : BitVec 6) :
    (putsIssue l n).length = l.length + (n.toNat + l.length) / 64 * 130 := by
  have hcount := countP_putsIssue (fun _ => true) l n
  rwa [List.countP_true, length_compressSeq] at hcount

/-- Without the micro-operations of COMPRESS, a list of stored bytes issues itself. -/
theorem filter_putsIssue {l : List Instr} (hl : ∀ i ∈ l, i ∉ compressSeq) (n : BitVec 6) :
    (putsIssue l n).filter (fun j => j ∉ compressSeq) = l := by
  induction l generalizing n with
  | nil => rfl
  | cons i l ih =>
    obtain ⟨hi, hrest⟩ := List.forall_mem_cons.mp hl
    have hcompress : (if n = 63#6 then compressSeq else []).filter (fun j => j ∉ compressSeq) = [] := by
      split <;> simp
    rw [putsIssue, List.filter_append, ih hrest, putIssues, List.filter_cons_of_pos (by simpa using hi),
      hcompress]
    rfl

/-! ### The padding of FINISH (spec/41_padding.md R113) -/

theorem zeroBytes_fill_index (n : BitVec 6) :
    zeroBytes n.toNat = if n.toNat ≤ 55 then 55 - n.toNat else 119 - n.toNat := by
  have := n.isLt
  unfold zeroBytes
  split <;> omega

theorem padSeq_eq (n : BitVec 6) :
    padSeq n = Instr.padm :: List.replicate (zeroBytes n.toNat) Instr.padz ++
      [0#3, 1#3, 2#3, 3#3, 4#3, 5#3, 6#3, 7#3].map .padl := by
  rw [padSeq, zeroCount_eq (Nat.mod_eq_of_lt n.isLt).symm]
  rfl

theorem length_padSeq (n : BitVec 6) : (padSeq n).length = zeroBytes n.toNat + 9 := by
  simp [padSeq_eq]

/-- PAD ends the block at the first or the second multiple of 64. -/
theorem padSeq_fills (n : BitVec 6) :
    (n.toNat + (padSeq n).length) / 64 = if n.toNat ≤ 55 then 1 else 2 := by
  have := n.isLt
  rw [length_padSeq, zeroBytes_fill_index]
  split <;> omega

theorem mem_padSeq_not_mem_compressSeq {n : BitVec 6} {i : Instr} (hi : i ∈ padSeq n) : i ∉ compressSeq := by
  have hcases : i = .padm ∨ i = .padz ∨ ∃ x, i = .padl x := by
    simp only [padSeq, List.cons_append, List.mem_cons, List.mem_append, List.mem_replicate, List.mem_map] at hi
    obtain rfl | ⟨-, rfl⟩ | ⟨x, -, rfl⟩ := hi <;> simp
  obtain rfl | rfl | ⟨x, rfl⟩ := hcases <;> simp [compressSeq]

theorem effectIssues_finish (s : State) :
    effectIssues .finish s = putsIssue (padSeq s.n) s.n ++ [Instr.ser, Instr.discard] := rfl

theorem length_effectIssues_finish (s : State) :
    (effectIssues .finish s).length = zeroBytes s.n.toNat + if s.n.toNat ≤ 55 then 141 else 271 := by
  rw [effectIssues_finish, List.length_append, length_putsIssue, padSeq_fills, length_padSeq]
  split <;> simp

theorem count_acc_effectIssues_finish (s : State) :
    (effectIssues .finish s).count .acc = if s.n.toNat ≤ 55 then 1 else 2 := by
  have hpad : (padSeq s.n).countP (· == .acc) = 0 := by
    rw [← List.count_eq_countP, padSeq_eq]
    simp [List.count_replicate]
  have hcompress : compressSeq.countP (· == .acc) = 1 := count_acc_compressSeq
  rw [effectIssues_finish, List.count_append, List.count_eq_countP, countP_putsIssue, padSeq_fills, hpad,
    hcompress]
  simp

theorem filter_effectIssues_finish (s : State) :
    (effectIssues .finish s).filter (fun j => j ∉ compressSeq) = padSeq s.n ++ [Instr.ser, Instr.discard] := by
  rw [effectIssues_finish, List.filter_append, filter_putsIssue fun _ => mem_padSeq_not_mem_compressSeq]
  simp [compressSeq]

/-! ### What a command issues (spec/40_commands.md R101) -/

theorem issued_of_fault {i : Instr} {s : State} (hp : s.phase = .fault) : issued i s = [] :=
  if_pos hp

theorem issued_of_commandFaults {i : Instr} {s : State} (hp : s.phase ≠ .fault) (hf : commandFaults i s = true) :
    issued i s = [.discard] := by
  rw [issued, if_neg hp, if_pos hf]

theorem issued_of_effect {i : Instr} {s : State} (hp : s.phase ≠ .fault) (hf : commandFaults i s = false) :
    issued i s = effectIssues i s := by
  rw [issued, if_neg hp, hf]
  rfl

theorem issuedByWord_of_ok {c : BitVec 16} {i : Instr} (hc : decodeCommand c = .ok i) (s : State) :
    issuedByWord c s = issued i s := by
  rw [issuedByWord, hc]

theorem issuedByWord_of_illegal {c : BitVec 16} (hc : isInstr (decodeCommand c) = false) (s : State) :
    issuedByWord c s = if s.phase = .fault then [] else [.discard] := by
  obtain ⟨e, he⟩ := isInstr_eq_false_iff.mp hc
  rw [issuedByWord, he]

/-- No command's effect is DISCARD alone. -/
theorem effectIssues_ne_discard (i : Instr) (s : State) : effectIssues i s ≠ [.discard] := by
  cases i <;> simp [effectIssues, putIssues, padSeq, putsIssue]

theorem issued_eq_discard_iff {i : Instr} {s : State} (hp : s.phase ≠ .fault) :
    issued i s = [.discard] ↔ commandFaults i s = true := by
  cases hf : commandFaults i s with
  | true => simp [issued_of_commandFaults hp hf]
  | false => simp [issued_of_effect hp hf, effectIssues_ne_discard]

/-- The table of R98 leads to FAULT exactly where a command faults. -/
theorem commandOutcome_fault_iff {i : Instr} {s : State} (hi : IsCommand i = true) (hp : s.phase ≠ .fault) :
    (commandOutcome s i).1 = .fault ↔ commandFaults i s = true := by
  cases hph : s.phase with
  | fault => exact absurd hph hp
  | idle | done =>
    cases i with
    | start | data | finish | rddg | rdhx | stat => simp [commandOutcome, commandFaults, hph]
    | _ => cases hi
  | absorb =>
    cases i with
    | start | finish | rddg | rdhx | stat => simp [commandOutcome, commandFaults, hph]
    | data b =>
      simp only [commandOutcome, commandFaults, hph, ← len_eq_maxLen_iff]
      by_cases hlen : s.len = maxLen <;> simp [hlen]
    | _ => cases hi

theorem wordOutcome_fault_iff {c : BitVec 16} {s : State} (hp : s.phase ≠ .fault) :
    (wordOutcome s c).1 = .fault ↔ issuedByWord c s = [.discard] := by
  cases hc : decodeCommand c with
  | ok i =>
    rw [issuedByWord_of_ok hc, issued_eq_discard_iff hp, ← commandOutcome_fault_iff (decodeCommand_ok hc) hp,
      wordOutcome, hc]
  | error e => simp [wordOutcome, issuedByWord, hc, hp]

/-- Outside FAULT a word leads to FAULT exactly where DISCARD alone is issued (spec/60_exceptions.md R179). -/
theorem step_fault_iff_issuedByWord {s : State} {c : BitVec 16} {rest : List Event}
    (hs : s.events = .command c :: rest) (hp : s.phase ≠ .fault) :
    ∃ t, step s = .next t ∧ (t.phase = .fault ↔ issuedByWord c s = [.discard]) := by
  obtain ⟨t, ht, hout⟩ := step_wordOutcome hs
  refine ⟨t, ht, ?_⟩
  rw [← wordOutcome_fault_iff hp, ← hout]

theorem putIssues_eq (i : Instr) (n : BitVec 6) :
    putIssues i n = i :: (if n.toNat < 63 then [] else compressSeq) := by
  have hiff : n = 63#6 ↔ ¬ n.toNat < 63 := by
    rw [← BitVec.toNat_inj]
    have := n.isLt
    simp
    omega
  rw [putIssues]
  simp only [hiff, ite_not]

theorem length_putIssues (i : Instr) (n : BitVec 6) :
    (putIssues i n).length = if n.toNat < 63 then 1 else 131 := by
  rw [putIssues_eq]
  split <;> simp [length_compressSeq]

theorem length_effectIssues_le (i : Instr) (s : State) : (effectIssues i s).length ≤ 334 := by
  cases i with
  | data b =>
    rw [effectIssues, length_putIssues]
    split <;> simp
  | finish =>
    rw [length_effectIssues_finish, zeroBytes_fill_index]
    split <;> omega
  | _ => simp [effectIssues]

theorem length_issued_le (i : Instr) (s : State) : (issued i s).length ≤ 334 := by
  unfold issued
  split
  · simp
  · split
    · simp
    · exact length_effectIssues_le i s

theorem length_issuedByWord_le (s : State) (c : BitVec 16) : (issuedByWord c s).length ≤ 334 := by
  cases hc : decodeCommand c with
  | ok i => rw [issuedByWord_of_ok hc]; exact length_issued_le i s
  | error e =>
    rw [issuedByWord_of_illegal (by rw [hc]; rfl)]
    split <;> simp

theorem issuedByWord_of_fault {s : State} (hp : s.phase = .fault) (c : BitVec 16) : issuedByWord c s = [] := by
  cases hc : decodeCommand c with
  | ok i => rw [issuedByWord_of_ok hc, issued_of_fault hp]
  | error e => rw [issuedByWord_of_illegal (by rw [hc]; rfl), if_pos hp]

theorem issued_finish {s : State} (hp : s.phase = .absorb) : issued .finish s = effectIssues .finish s :=
  issued_of_effect (by simp [hp]) (by simp [commandFaults, hp])

/-- Settles O57: word by word and command by command, from what each issues. -/
theorem microOperationCounts : Obligations.MicroOperationCounts := by
  refine ⟨fun s c hp => issuedByWord_of_fault hp c, fun s c hp hc => ?_, fun s c i hc => issuedByWord_of_ok hc s,
    fun s c rest hs hp => step_fault_iff_issuedByWord hs hp, fun s i hp hf => issued_of_commandFaults hp hf,
    fun s hp => ?_, fun s b hp hlen => ?_, fun s hp => ?_, fun s x y hp => ?_, fun s => ?_,
    length_issuedByWord_le⟩
  · rw [issuedByWord_of_illegal hc, if_neg hp]
  · rcases hp with hp | hp <;> simp [issued, commandFaults, effectIssues, hp]
  · have hdata : issued (.data b) s = putIssues .push s.n :=
      issued_of_effect (by simp [hp]) (by simp [commandFaults, hp, hlen])
    rw [hdata]
    exact ⟨putIssues_eq _ _, length_putIssues _ _⟩
  · rw [issued_finish hp]
    refine ⟨?_, count_acc_effectIssues_finish s, length_effectIssues_finish s⟩
    rw [filter_effectIssues_finish, padSeq_eq, List.append_assoc]
    rfl
  · simp [issued, commandFaults, effectIssues, hp]
  · simp [issued, commandFaults, effectIssues]

end Sys2Proof.Proofs
end

