-- ==== Sys2Proof/Proofs/CompressSequence.lean ====
section
/-! PROOFS. The micro-operations of COMPRESS, run one by one, are COMPRESS (spec/41_padding.md R112). -/

namespace Sys2Proof.Proofs
open Sys2Proof.Machine

/-! ### EXP from index 16 on (spec/42_schedule.md R128) -/

theorem exec_exp_of_le {t : BitVec 6} (ht : 16 ≤ t.toNat) (s : State) :
    exec (.exp t) s = .next (expandScheduleWord t s) :=
  if_pos ht

theorem le_toNat_of_mem_indices {width lo count : Nat} (hfit : lo + count ≤ 2 ^ width) {t : BitVec width}
    (ht : t ∈ indices width lo count) : lo ≤ t.toNat := by
  obtain ⟨m, hm, rfl⟩ := List.mem_map.mp ht
  obtain ⟨hlo, hhi⟩ := List.mem_range'_1.mp hm
  rwa [BitVec.toNat_ofNat, Nat.mod_eq_of_lt (by omega)]

/-- On a list of indices from 16 on, EXP is total, so its run is the fold of its operation. -/
theorem runAll_map_exp {l : List (BitVec 6)} (hl : ∀ t ∈ l, 16 ≤ t.toNat) (s : State) :
    runAll (l.map .exp) s = .next (l.foldl (fun s t => expandScheduleWord t s) s) := by
  lift l to List {t : BitVec 6 // 16 ≤ t.toNat} using hl
  rw [List.map_map, List.foldl_map]
  exact runAll_map (fun t => exec_exp_of_le t.2) l s

/-! ### COMPRESS (spec/41_padding.md R112) -/

/-- COMPRESS is its sequence of micro-operations, part by part in the reference order. -/
theorem runAll_compressSeq (s : State) : runAll compressSeq s = .next (compress s) := by
  have hloads := runAll_map (f := .ldw) (op := loadScheduleWord) (fun _ _ => rfl) (indices 4 0 16) s
  have hexpands := runAll_map_exp fun _ => le_toNat_of_mem_indices (lo := 16) (count := 48) (by decide)
  have hldv (u : State) : runAll [.ldv] u = .next (loadWorking u) := rfl
  have hrounds := runAll_map (f := .rnd) (op := roundStep) (fun _ _ => rfl) (indices 6 0 64)
  simp only [compressSeq, List.append_assoc]
  rw [runAll_append hloads, runAll_append (hexpands _), runAll_append (hldv _), runAll_append (hrounds _)]
  unfold compress
  rfl

/-- Settles O47: the run is COMPRESS, whose equation names the value of each field it writes. -/
theorem compressSequenceIsBlockFunction : Obligations.CompressSequenceIsBlockFunction := by
  refine ⟨length_compressSeq, fun s => ⟨compress s, runAll_compressSeq s, compress_h s, compress_w s, ?_⟩⟩
  rw [compress_eq]

end Sys2Proof.Proofs
end

section
/-! PROOFS. The message schedule: the small sigmas, LDW and EXP (spec/42_schedule.md R126 to R128). -/

namespace Sys2Proof.Proofs
open Sys2Proof.Machine

/-! ### The small sigmas (spec/42_schedule.md R126) -/

/-- `rotr` of R10 is the library's rotation. -/
theorem rotr_eq_rotateRight (x : Word) {n : Nat} (hn : n < 32) : rotr x n = x.rotateRight n := by
  rw [rotr, BitVec.rotateRight_def, Nat.mod_eq_of_lt hn]

theorem smallSigma0_eq (x : Word) :
    smallSigma0 x = x.rotateRight 7 ^^^ x.rotateRight 18 ^^^ (x >>> 3) := by
  rw [smallSigma0, rotr_eq_rotateRight x (by decide), rotr_eq_rotateRight x (by decide), shr]

theorem smallSigma1_eq (x : Word) :
    smallSigma1 x = x.rotateRight 17 ^^^ x.rotateRight 19 ^^^ (x >>> 10) := by
  rw [smallSigma1, rotr_eq_rotateRight x (by decide), rotr_eq_rotateRight x (by decide), shr]

/-- Settles O40: the rotations are the library's, and the ten listed values are evaluated. -/
theorem smallSigmas : Obligations.SmallSigmas :=
  ⟨smallSigma0_eq, smallSigma1_eq, by decide⟩

/-! ### LDW (spec/42_schedule.md R127) -/

/-- The schedule index of LDW is its 4-bit operand. -/
theorem zero_append_eq_ofNat (t : BitVec 4) : 0#2 ++ t = BitVec.ofNat 6 t.toNat :=
  BitVec.eq_of_toNat_eq (by rw [toNat_append_eq_add, BitVec.toNat_ofNat, BitVec.toNat_ofNat]; omega)

/-- The buffer index `{t, c}` of `blockWord` is `4t + c` (spec/00_scope.md R11). -/
theorem append_eq_ofNat (t : BitVec 4) (c : BitVec 2) : t ++ c = BitVec.ofNat 6 (4 * t.toNat + c.toNat) :=
  BitVec.eq_of_toNat_eq (by rw [toNat_append_eq_add, BitVec.toNat_ofNat]; omega)

theorem blockWord_eq (b : Vector Byte 64) (t : BitVec 4) :
    blockWord b t =
      byteAt b (BitVec.ofNat 6 (4 * t.toNat)) ++ byteAt b (BitVec.ofNat 6 (4 * t.toNat + 1))
        ++ byteAt b (BitVec.ofNat 6 (4 * t.toNat + 2)) ++ byteAt b (BitVec.ofNat 6 (4 * t.toNat + 3)) := by
  simp only [blockWord, append_eq_ofNat]
  rfl

/-- The concatenation of four bytes, the first the most significant (spec/20_memory.md R51). -/
theorem toNat_append_bytes (b₀ b₁ b₂ b₃ : Byte) :
    (b₀ ++ b₁ ++ b₂ ++ b₃).toNat =
      2 ^ 24 * b₀.toNat + 2 ^ 16 * b₁.toNat + 2 ^ 8 * b₂.toNat + b₃.toNat := by
  simp only [toNat_append_eq_add]
  ring

/-- Settles O31: W changes at index t alone, where it takes the four bytes of the block. -/
theorem ldwLoadsBlockWord : Obligations.LdwLoadsBlockWord := by
  intro t s
  refine ⟨loadScheduleWord t s, rfl, rfl, ?_, fun j hj => ?_⟩
  · rw [loadScheduleWord_w, zero_append_eq_ofNat, wordAt_setWord_self, blockWord_eq, toNat_append_bytes]
  · have hindex : j ≠ 0#2 ++ t := by
      rintro rfl
      exact hj (by rw [toNat_append_eq_add, BitVec.toNat_ofNat]; omega)
    exact wordAt_setWord_ne _ _ hindex

/-! ### EXP (spec/42_schedule.md R128) -/

/-- A 6-bit index does not wrap where it is reduced by no more than itself. -/
theorem sub_eq_ofNat {t c : BitVec 6} (h : c.toNat ≤ t.toNat) :
    t - c = BitVec.ofNat 6 (t.toNat - c.toNat) :=
  BitVec.eq_of_toNat_eq (by
    have := t.isLt
    rw [BitVec.toNat_sub_of_le (BitVec.le_def.mpr h), BitVec.toNat_ofNat, Nat.mod_eq_of_lt (by omega)])

/-- The recurrence of R128, its four terms in the spec's order. -/
theorem expandWord_eq (w : Vector Word 64) {t : BitVec 6} (ht : 16 ≤ t.toNat) :
    expandWord w t =
      smallSigma1 (wordAt w (BitVec.ofNat 6 (t.toNat - 2)))
        + wordAt w (BitVec.ofNat 6 (t.toNat - 7))
        + smallSigma0 (wordAt w (BitVec.ofNat 6 (t.toNat - 15)))
        + wordAt w (BitVec.ofNat 6 (t.toNat - 16)) := by
  have hback {c : BitVec 6} (hc : c.toNat ≤ 16) : t - c = BitVec.ofNat 6 (t.toNat - c.toNat) :=
    sub_eq_ofNat (hc.trans ht)
  rw [expandWord, hback (c := 2#6) (by decide), hback (c := 7#6) (by decide),
    hback (c := 15#6) (by decide), hback (c := 16#6) (by decide), ← BitVec.add_assoc]
  rfl

/-- Four terms added modulo 2^32 at each step are their sum modulo 2^32. -/
theorem toNat_add_four (a b c d : Word) :
    (a + b + c + d).toNat = (a.toNat + b.toNat + c.toNat + d.toNat) % 2 ^ 32 := by
  simp only [BitVec.toNat_add, Nat.mod_add_mod]

/-- Settles O32: from index 16 on EXP runs, and W changes at index t alone, by the recurrence. -/
theorem expDerivesScheduleWord : Obligations.ExpDerivesScheduleWord := by
  intro t s ht
  refine ⟨expandScheduleWord t s, exec_exp_of_le ht s, rfl, ?_, fun j hj => wordAt_setWord_ne _ _ hj⟩
  rw [expandScheduleWord_w, wordAt_setWord_self, expandWord_eq _ ht, toNat_add_four]

end Sys2Proof.Proofs
end

section
/-! PROOFS. The compression round: the capital sigmas, Ch and Maj, the round constants, LDV and RND
(spec/43_compression.md R141 to R145). -/

namespace Sys2Proof.Proofs
open Sys2Proof.Machine

/-! ### The capital sigmas (spec/43_compression.md R141) -/

theorem bigSigma0_eq (x : Word) :
    bigSigma0 x = x.rotateRight 2 ^^^ x.rotateRight 13 ^^^ x.rotateRight 22 := by
  rw [bigSigma0, rotr_eq_rotateRight x (by decide), rotr_eq_rotateRight x (by decide),
    rotr_eq_rotateRight x (by decide)]

theorem bigSigma1_eq (x : Word) :
    bigSigma1 x = x.rotateRight 6 ^^^ x.rotateRight 11 ^^^ x.rotateRight 25 := by
  rw [bigSigma1, rotr_eq_rotateRight x (by decide), rotr_eq_rotateRight x (by decide),
    rotr_eq_rotateRight x (by decide)]

/-- Settles O41: the rotations are the library's, and the ten listed values are evaluated. -/
theorem bigSigmas : Obligations.BigSigmas :=
  ⟨bigSigma0_eq, bigSigma1_eq, by decide⟩

/-! ### Ch and Maj (spec/43_compression.md R142) -/

/-- Ch chooses: bit `i` of `x` says whose bit `i` is taken. -/
theorem getLsbD_ch (x y z : Word) {i : Nat} (hi : i < 32) :
    (ch x y z).getLsbD i = if x.getLsbD i = true then y.getLsbD i else z.getLsbD i := by
  rw [ch, BitVec.getLsbD_xor, BitVec.getLsbD_and, BitVec.getLsbD_and, BitVec.getLsbD_not]
  cases x.getLsbD i <;> simp [hi]

/-- Maj votes: bit `i` is set where at least two of the three bits are. -/
theorem getLsbD_maj (x y z : Word) (i : Nat) :
    (maj x y z).getLsbD i =
      decide (2 ≤ (x.getLsbD i).toNat + (y.getLsbD i).toNat + (z.getLsbD i).toNat) := by
  simp only [maj, BitVec.getLsbD_xor, BitVec.getLsbD_and]
  generalize x.getLsbD i = a, y.getLsbD i = b, z.getLsbD i = c
  revert a b c
  decide

/-- The two terms of Ch never share a bit, so `^` may be `|`. -/
theorem ch_eq_or (x y z : Word) : ch x y z = (x &&& y) ||| (~~~x &&& z) := by
  refine BitVec.eq_of_getLsbD_eq fun i hi => ?_
  rw [getLsbD_ch x y z hi, BitVec.getLsbD_or, BitVec.getLsbD_and, BitVec.getLsbD_and, BitVec.getLsbD_not]
  cases x.getLsbD i <;> simp [hi]

theorem ch_zero (y z : Word) : ch 0#32 y z = z :=
  BitVec.eq_of_getLsbD_eq fun i hi => by rw [getLsbD_ch _ _ _ hi]; simp

theorem ch_allOnes (y z : Word) : ch 0xFFFFFFFF#32 y z = y := by
  refine BitVec.eq_of_getLsbD_eq fun i hi => ?_
  have hbit : (0xFFFFFFFF#32).getLsbD i = true := (BitVec.getLsbD_allOnes (v := 32)).trans (decide_eq_true hi)
  rw [getLsbD_ch _ _ _ hi, if_pos hbit]

theorem maj_swap_left (x y z : Word) : maj x y z = maj y x z :=
  BitVec.eq_of_getLsbD_eq fun i _ => by rw [getLsbD_maj, getLsbD_maj, Nat.add_comm (x.getLsbD i).toNat]

theorem maj_swap_right (x y z : Word) : maj x y z = maj x z y :=
  BitVec.eq_of_getLsbD_eq fun i _ => by rw [getLsbD_maj, getLsbD_maj, Nat.add_right_comm]

theorem maj_self_left (x z : Word) : maj x x z = x := by
  refine BitVec.eq_of_getLsbD_eq fun i _ => ?_
  rw [getLsbD_maj]
  cases x.getLsbD i <;> cases z.getLsbD i <;> rfl

/-- Settles O42: bit by bit; the symmetries of Maj are those of the vote's sum. Ch has none: `ch 0 1 1` is 1 and
`ch 1 0 1` is 0. -/
theorem chooseAndMajority : Obligations.ChooseAndMajority :=
  ⟨fun x y z i hi => ⟨getLsbD_ch x y z hi, getLsbD_maj x y z i⟩, ch_eq_or,
    fun x y z => ⟨maj_swap_left x y z, maj_swap_right x y z⟩,
    fun y z => ⟨ch_zero y z, ch_allOnes y z⟩, maj_self_left,
    by decide, by decide, by decide, by decide, 0#32, 1#32, 1#32, by decide⟩

/-! ### The round constants (spec/43_compression.md R143) -/

/-- The numbers below `n` with property `p`, in order, are the first ones with it. -/
theorem map_nth_range_count (p : Nat → Prop) [DecidablePred p] (n : Nat) :
    (List.range (Nat.count p n)).map (Nat.nth p) = (List.range n).filter p := by
  induction n with
  | zero => rfl
  | succ n ih =>
    by_cases hn : p n
    · simp [Nat.count_succ, List.range_succ, hn, ih, Nat.nth_count hn]
    · simp [Nat.count_succ, List.range_succ, hn, ih]

theorem nth_eq_of_filter_range {p : Nat → Prop} [DecidablePred p] {n : Nat} {l : List Nat}
    (hl : (List.range n).filter p = l) {i : Nat} (hi : i < l.length) : Nat.nth p i = l[i] := by
  subst hl
  simp only [← map_nth_range_count, List.getElem_map, List.getElem_range]

/-- Trial division by the numbers from 2 to `b - 1`, as far as the square root of `n`. -/
def passesTrialDivision (b n : Nat) : Bool :=
  decide (2 ≤ n ∧ ∀ m < b, 2 ≤ m → m ^ 2 ≤ n → ¬ m ∣ n)

/-- Below `b ^ 2` trial division by the numbers below `b` decides primality. -/
theorem prime_iff_passesTrialDivision {b n : Nat} (hn : n < b ^ 2) :
    n.Prime ↔ passesTrialDivision b n = true := by
  rw [passesTrialDivision, decide_eq_true_iff, Nat.prime_def_le_sqrt]
  refine and_congr_right fun _ => forall_congr' fun m => ?_
  have hlt (h : m ^ 2 ≤ n) : m < b := lt_of_pow_lt_pow_left₀ 2 b.zero_le (h.trans_lt hn)
  rw [Nat.le_sqrt']
  tauto

/-- The first 64 primes, the radicands of K (R143). -/
def kPrime : Vector Nat 64 :=
  #v[2, 3, 5, 7, 11, 13, 17, 19, 23, 29, 31, 37, 41, 43, 47, 53,
    59, 61, 67, 71, 73, 79, 83, 89, 97, 101, 103, 107, 109, 113, 127, 131,
    137, 139, 149, 151, 157, 163, 167, 173, 179, 181, 191, 193, 197, 199, 211, 223,
    227, 229, 233, 239, 241, 251, 257, 263, 269, 271, 277, 281, 283, 293, 307, 311]

theorem filter_trialDivision_eq_kPrime :
    (List.range 312).filter (passesTrialDivision 18) = kPrime.toList := by decide

/-- `kPrime` lists the primes up to 311, all of them below 18 squared. -/
theorem filter_prime_eq_kPrime : (List.range 312).filter Nat.Prime = kPrime.toList := by
  rw [← filter_trialDivision_eq_kPrime]
  refine List.filter_congr fun n hn => ?_
  have hlt : n < 18 ^ 2 := (List.mem_range.mp hn).trans (by decide)
  rw [Bool.eq_iff_iff, decide_eq_true_iff, prime_iff_passesTrialDivision hlt]

theorem nth_prime_eq_kPrime (t : Fin 64) : Nat.nth Nat.Prime t.val = kPrime[t] :=
  nth_eq_of_filter_range filter_prime_eq_kPrime (by simp)

/-- The table of R143 against the root, whose integer computation is the library's. -/
theorem k_toNat_eq_nthRoot :
    ∀ t : Fin 64, (k[t]).toNat = Nat.nthRoot 3 (kPrime[t] * 2 ^ 96) % 2 ^ 32 := by decide

/-- Settles O43: the root is `Nat.nthRoot 3` of the prime scaled by 2^96, whose last 32 bits are K[t]. -/
theorem roundConstantsAreCubeRoots : Obligations.RoundConstantsAreCubeRoots := by
  intro t
  rw [nth_prime_eq_kPrime]
  exact ⟨Nat.nthRoot 3 (kPrime[t] * 2 ^ 96), Nat.pow_nthRoot_le (.inl (by decide)),
    Nat.lt_pow_nthRoot_add_one (by decide) _, k_toNat_eq_nthRoot t⟩

/-! ### LDV (spec/43_compression.md R144) -/

/-- Settles O33: the run is `loadWorking`, which writes V alone. -/
theorem ldvLoadsWorkingRegisters : Obligations.LdvLoadsWorkingRegisters :=
  fun s => ⟨loadWorking s, rfl, rfl, fun i => by rw [loadWorking_v]⟩

/-! ### RND (spec/43_compression.md R145) -/

/-- T1 as R145's sum modulo 2^32: where the sum is reduced on the way does not matter (R146). -/
theorem toNat_roundT1 (v : Vector Word 8) (kt wt : Word) :
    (roundT1 v kt wt).toNat =
      (v[7].toNat + (bigSigma1 v[4]).toNat + (ch v[4] v[5] v[6]).toNat + kt.toNat + wt.toNat) % 2 ^ 32 := by
  simp only [roundT1, BitVec.toNat_add, Nat.mod_add_mod, Nat.add_mod_mod, Nat.add_assoc]

theorem toNat_roundT2 (v : Vector Word 8) :
    (roundT2 v).toNat = ((bigSigma0 v[0]).toNat + (maj v[0] v[1] v[2]).toNat) % 2 ^ 32 :=
  BitVec.toNat_add _ _

/-- Settles O34: `roundRegs` adds T1 and T2 into the first register and T1 into the fifth; the other six move. -/
theorem rndIsOneRound : Obligations.RndIsOneRound := by
  intro t s
  refine ⟨roundStep t s, rfl, rfl, (roundT1 s.v (wordAt k t) (wordAt s.w t)).toNat, (roundT2 s.v).toNat,
    toNat_roundT1 _ _ _, toNat_roundT2 _, ?_⟩
  rw [roundStep_v]
  exact ⟨BitVec.toNat_add _ _, rfl, rfl, rfl, BitVec.toNat_add _ _, rfl, rfl, rfl⟩

end Sys2Proof.Proofs
end

section
/-! PROOFS. The hash state from the start of a call to its digest: INIT, ACC, SER, DISCARD, FINISH and the hex digits
(spec/44_accumulate_output.md R160 to R169). -/

namespace Sys2Proof.Proofs
open Sys2Proof.Machine

/-! ### INIT, ACC and DISCARD (spec/44_accumulate_output.md R160, R161, R163) -/

/-- Settles O29: the run is `initState`, and `iv` is the table of R23. -/
theorem initSetsHashState : Obligations.InitSetsHashState :=
  fun s => ⟨initState s, rfl, rfl, by simp, by simp, initState_h s⟩

theorem getElem_addWords (h v : Vector Word 8) (i : Fin 8) : (addWords h v)[i] = h[i] + v[i] := by
  simp [addWords]

/-- Settles O35: each word of `addWords` is one addition of words, which drops the carry out of bit 31. -/
theorem accAddsIntoHashState : Obligations.AccAddsIntoHashState := by
  intro s
  refine ⟨accumulate s, rfl, rfl, fun i => ?_⟩
  rw [accumulate_h, getElem_addWords, BitVec.toNat_add]

/-- Settles O37: the run is `discardState`, which keeps every field but the six and the count of free values. -/
theorem discardLeavesTheRest : Obligations.DiscardLeavesTheRest :=
  fun s => ⟨discardState s, rfl, rfl⟩

/-! ### SER (spec/44_accumulate_output.md R162) -/

theorem toNat_wordByte (x : Word) (j : Nat) : (wordByte x j).toNat = x.toNat / 2 ^ (24 - 8 * j) % 256 := by
  rw [wordByte, BitVec.extractLsb'_toNat, Nat.shiftRight_eq_div_pow]

theorem getElem_wordsToBytes (h : Vector Word 8) {j : Nat} (hj : j < 32) (hw : j / 4 < 8) :
    (wordsToBytes h)[j] = wordByte h[j / 4] (j % 4) := by
  simp [wordsToBytes]

/-- Settles O36: byte `j` of DIGEST is byte `j % 4` of word `j / 4` of H, the most significant byte first. -/
theorem serWritesDigest : Obligations.SerWritesDigest := by
  intro s
  refine ⟨serialise s, rfl, rfl, fun j hj hw => ?_⟩
  simp only [serialise_digest, getElem_wordsToBytes s.h hj hw, toNat_wordByte]

/-! ### FINISH (spec/44_accumulate_output.md R164) -/

theorem status_done {s : State} (hphase : s.phase = .done) (hcause : s.cause = .none) : status s = 0x02#8 := by
  rw [status, hphase, hcause]
  rfl

theorem commandEffect_finish_responses (s : State) :
    (commandEffect .finish s).responses = s.responses ++ [status (commandEffect .finish s)] := by
  simp [commandEffect]

/-- Settles O53: PAD leaves H as the hash state of the whole padded message, SER latches its bytes, and DISCARD keeps
them. -/
theorem finishLatchesSha256 : Obligations.FinishLatchesSha256 := by
  intro s m habsorbing
  have ⟨hphase, hcause, _⟩ := habsorbing
  have hdone : (commandEffect .finish s).phase = .done := rfl
  have hnone : (commandEffect .finish s).cause = .none := by simp [commandEffect, hcause]
  have hdigest : (commandEffect .finish s).digest = wordsToBytes (padding s).h := rfl
  refine ⟨commandEffect .finish s, exec_of_legal rfl hphase ⟨nofun, rfl⟩, hdone, hnone, ?_, ?_, ?_⟩
  · rw [hdigest, padding_finalHash habsorbing, sha256]
  · rw [commandEffect_finish_responses, status_done hdone hnone]
  · simp [commandEffect]

/-! ### The hex digits (spec/44_accumulate_output.md R169) -/

/-- Settles O45: the two ranges of the formula are the codes of `0` to `9` and of `a` to `f`. -/
theorem hexDigitsAreAscii : Obligations.HexDigitsAreAscii :=
  ⟨toNat_hexdigit, by decide⟩

end Sys2Proof.Proofs
end

section
/-! PROOFS. Phase FAULT is left by reset alone (spec/60_exceptions.md R180). -/

namespace Sys2Proof.Proofs
open Sys2Proof.Machine

/-! ### The micro-operations (spec/60_exceptions.md R177) -/

/-- Every well-formed micro-operation answers a next state, and leaves what only a command, a fault or reset writes. -/
theorem exec_microOperation {i : Instr} (hi : IsCommand i = false) (hwf : i.WellFormed) (s : State) :
    ∃ t, exec i s = .next t ∧ t.phase = s.phase ∧ t.cause = s.cause ∧ t.responses = s.responses ∧
      t.events = s.events ∧ t.cmdPort = s.cmdPort := by
  cases i with
  | start | data | finish | rddg | rdhx | stat => cases hi
  | push => exact ⟨pushByte (cmdArg s.cmdPort) s, rfl, by simp⟩
  | padm => exact ⟨put markerByte s, rfl, by simp⟩
  | padz => exact ⟨put 0x00#8 s, rfl, by simp⟩
  | padl x => exact ⟨put (lengthByte s.len x) s, rfl, by simp⟩
  | exp t =>
    have ht : 16 ≤ t.toNat := of_decide_eq_true hwf
    exact ⟨expandScheduleWord t s, exec_exp_of_le ht s, rfl, rfl, rfl, rfl, rfl⟩
  | init | ldw | ldv | rnd | acc | ser | discard => exact ⟨_, rfl, rfl, rfl, rfl, rfl, rfl⟩

/-- Where a control word answers a next state, it has run a well-formed micro-operation (spec/30_encoding.md R83). -/
theorem step_control {s t : State} {u : BitVec 10} {rest : List Event} (hs : s.events = .control u :: rest)
    (h : step s = .next t) :
    ∃ i, IsCommand i = false ∧ i.WellFormed ∧ exec i { s with events := rest } = .next t := by
  cases hu : decodeControl u with
  | ok i =>
    obtain ⟨hi, hwf⟩ := decodeControl_ok hu
    exact ⟨i, hi, hwf, by simpa [step, hs, hu] using h⟩
  | error e => simp [step, hs, hu] at h

theorem step_control_keeps_phase_and_cause {s t : State} {u : BitVec 10} {rest : List Event}
    (hs : s.events = .control u :: rest) (h : step s = .next t) : t.phase = s.phase ∧ t.cause = s.cause := by
  obtain ⟨i, hi, hwf, hexec⟩ := step_control hs h
  obtain ⟨t', ht', hphase, hcause, -⟩ := exec_microOperation hi hwf { s with events := rest }
  obtain rfl : t' = t := Host.Outcome.next.inj (ht'.symm.trans hexec)
  exact ⟨hphase, hcause⟩

/-! ### No return from a fault (spec/60_exceptions.md R180) -/

theorem step_no_event {s : State} (hs : s.events = []) : step s = .next s := by
  simp [step, hs]

theorem step_reset {s : State} {rest : List Event} (hs : s.events = .reset :: rest) :
    step s = .next (hostReset { s with events := rest }) := by
  simp [step, hs]

/-- Settles O18, event by event: a command word is ignored in FAULT, a control word never writes PHASE or CAUSE. -/
theorem onlyResetLeavesFault : Obligations.OnlyResetLeavesFault := by
  intro s t hp h
  cases hs : s.events with
  | nil =>
    rw [step_no_event hs] at h
    cases h
    exact .inl ⟨hp, rfl⟩
  | cons e rest =>
    cases e with
    | command c =>
      rw [faultPhaseIgnoresCommands s c rest hp hs] at h
      cases h
      exact .inl ⟨hp, rfl⟩
    | reset =>
      rw [step_reset hs] at h
      cases h
      exact .inr ⟨rest, rfl, rfl, rfl⟩
    | control u =>
      obtain ⟨hphase, hcause⟩ := step_control_keeps_phase_and_cause hs h
      exact .inl ⟨hphase.trans hp, hcause⟩

end Sys2Proof.Proofs
end

section
/-! PROOFS. What a reset event leaves (spec/70_reset_and_hazards.md R200). -/

namespace Sys2Proof.Proofs
open Sys2Proof.Machine

/-- Settles O2: the step runs `hostReset`, and its field lemmas give the clauses in order. -/
theorem resetEventLeavesIdle : Obligations.ResetEventLeavesIdle := by
  intro s rest hs
  exact ⟨hostReset { s with events := rest }, step_reset hs, hostReset_phase _, hostReset_cause _,
    status_hostReset _, hostReset_responses _, hostReset_events _, hostReset_cmdPort _⟩

end Sys2Proof.Proofs
end

section
/-! PROOFS. The decoders and the encoder as round trips, what the sequencer issues, and words outside the table
(spec/30_encoding.md R75, R83, R84). -/

namespace Sys2Proof.Proofs
open Sys2Proof.Machine

/-! ### Round trips (spec/30_encoding.md R75, R83) -/

/-- Settles O7, by the kind of the instruction's word. -/
theorem decodeEncodeRoundTrip : Obligations.DecodeEncodeRoundTrip := by
  intro i hwf
  cases hw : encode i with
  | command c => exact decodeCommandWith_of_encode hw hwf
  | control u => exact decodeControl_of_encode hw hwf

/-- Settles O8, by the kind of the word. -/
theorem encodeDecodeRoundTrip : Obligations.EncodeDecodeRoundTrip := by
  intro w i h
  cases w with
  | command c => exact encode_of_decodeCommandWith h
  | control u => exact decodeControl_eq_ok_iff.mp h

/-! ### What the sequencer issues (spec/30_encoding.md R84) -/

/-- A micro-operation the spec has: no command, and its index in range (R83, R84). -/
def IsMicroOperation (i : Instr) : Prop := IsCommand i = false ∧ i.WellFormed

/-- A micro-operation's word is a control word of the table. -/
theorem IsMicroOperation.controlWord {j : Instr} (hj : IsMicroOperation j) :
    ∃ u, encode j = .control u ∧ decodeControl u = .ok j := by
  obtain ⟨hkind, hwf⟩ := hj
  cases hw : encode j with
  | command c => simp [IsCommand, hw] at hkind
  | control u => exact ⟨u, rfl, decodeControl_of_encode hw hwf⟩

theorem isMicroOperation_of_mem_compressSeq {j : Instr} (hj : j ∈ compressSeq) : IsMicroOperation j := by
  simp only [compressSeq, List.mem_append, List.mem_map, List.mem_singleton] at hj
  rcases hj with (((⟨t, -, rfl⟩ | ⟨t, ht, rfl⟩) | rfl) | ⟨t, -, rfl⟩) | rfl
  case inl.inl.inl.inr => exact ⟨rfl, decide_eq_true (le_toNat_of_mem_indices (by decide) ht)⟩
  all_goals exact ⟨rfl, rfl⟩

theorem isMicroOperation_of_mem_putIssues {i j : Instr} {n : BitVec 6} (hi : IsMicroOperation i)
    (hj : j ∈ putIssues i n) : IsMicroOperation j := by
  obtain rfl | hj := List.mem_cons.mp hj
  · exact hi
  · exact isMicroOperation_of_mem_compressSeq (List.mem_ite_nil_right.mp hj).2

theorem isMicroOperation_of_mem_putsIssue {l : List Instr} {j : Instr} (hl : ∀ i ∈ l, IsMicroOperation i)
    {n : BitVec 6} (hj : j ∈ putsIssue l n) : IsMicroOperation j := by
  induction l generalizing n with
  | nil => cases hj
  | cons i l ih =>
    obtain ⟨hi, hrest⟩ := List.forall_mem_cons.mp hl
    obtain hj | hj := List.mem_append.mp hj
    · exact isMicroOperation_of_mem_putIssues hi hj
    · exact ih hrest hj

theorem isMicroOperation_of_mem_padSeq {n : BitVec 6} {j : Instr} (hj : j ∈ padSeq n) : IsMicroOperation j := by
  simp only [padSeq, List.cons_append, List.mem_cons, List.mem_append, List.mem_replicate, List.mem_map] at hj
  obtain rfl | ⟨-, rfl⟩ | ⟨x, -, rfl⟩ := hj <;> exact ⟨rfl, rfl⟩

theorem isMicroOperation_of_mem_effectIssues {i j : Instr} {s : State} (hj : j ∈ effectIssues i s) :
    IsMicroOperation j := by
  cases i with
  | start => rw [List.mem_singleton.mp hj]; exact ⟨rfl, rfl⟩
  | data b => exact isMicroOperation_of_mem_putIssues ⟨rfl, rfl⟩ hj
  | finish =>
    rw [effectIssues_finish, List.mem_append] at hj
    obtain hj | hj := hj
    · exact isMicroOperation_of_mem_putsIssue (fun _ => isMicroOperation_of_mem_padSeq) hj
    · simp only [List.mem_cons, List.not_mem_nil, or_false] at hj
      obtain rfl | rfl := hj <;> exact ⟨rfl, rfl⟩
  | _ => cases hj

theorem isMicroOperation_of_mem_issued {i j : Instr} {s : State} (hj : j ∈ issued i s) : IsMicroOperation j := by
  unfold issued at hj
  split at hj
  · cases hj
  · split at hj
    · rw [List.mem_singleton.mp hj]; exact ⟨rfl, rfl⟩
    · exact isMicroOperation_of_mem_effectIssues hj

theorem isMicroOperation_of_mem_issuedByWord {c : BitVec 16} {j : Instr} {s : State}
    (hj : j ∈ issuedByWord c s) : IsMicroOperation j := by
  cases hc : decodeCommand c with
  | ok i => exact isMicroOperation_of_mem_issued (issuedByWord_of_ok hc s ▸ hj)
  | error e =>
    rw [issuedByWord_of_illegal (by rw [hc]; rfl)] at hj
    split at hj
    · cases hj
    · rw [List.mem_singleton.mp hj]; exact ⟨rfl, rfl⟩

/-- Settles O13: what is issued is a micro-operation in range, and its word is in the table. -/
theorem sequencerIssuesTableWords : Obligations.SequencerIssuesTableWords :=
  ⟨fun _ _ _ hj => (isMicroOperation_of_mem_issued hj).controlWord,
    fun _ _ _ hj => (isMicroOperation_of_mem_issuedByWord hj).controlWord⟩

/-! ### Control words in the machine (spec/30_encoding.md R83, R84) -/

theorem step_control_ok {s : State} {u : BitVec 10} {rest : List Event} {i : Instr}
    (hs : s.events = .control u :: rest) (hu : decodeControl u = .ok i) :
    step s = exec i { s with events := rest } := by
  simp [step, hs, hu]

theorem step_control_outside {s : State} {u : BitVec 10} {rest : List Event} {e : DecodeError}
    (hs : s.events = .control u :: rest) (hu : decodeControl u = .error e) :
    step s = .refused (.controlWordOutsideTable u) := by
  simp [step, hs, hu]

/-- Settles O12: the step by its decoder's answer, EXP by its own test. -/
theorem controlWordsOutsideTableRefused : Obligations.ControlWordsOutsideTableRefused := by
  refine ⟨fun s u rest hs hu => ?_, fun s t ht => ⟨_, if_neg (Nat.not_le.mpr ht)⟩⟩
  obtain ⟨e, he⟩ := isInstr_eq_false_iff.mp hu
  exact step_control_outside hs he

/-- Settles O1: one clause for each event and each answer of its decoder. -/
theorem stepRunsTheNextEvent : Obligations.StepRunsTheNextEvent := by
  refine fun s => ⟨step_no_event, fun c rest i => step_command, fun c rest e hs he => ?_,
    fun u rest i => step_control_ok, fun u rest e => step_control_outside, fun rest => step_reset⟩
  exact step_illegal hs (by rw [he]; rfl)

/-! ### Words of the opcode table (spec/30_encoding.md R83) -/

theorem decodeTableWord_eq_some {nbits w : Nat} {i : Instr} (h : decodeTableWord nbits w = some i) :
    w < 2 ^ nbits ∧ decode (tableWord w) = .ok i := by
  unfold decodeTableWord at h
  split at h
  · next hw =>
    cases hd : decode (tableWord w) with
    | ok j => rw [hd] at h; cases h; exact ⟨hw.1, rfl⟩
    | error e => rw [hd] at h; cases h
  · cases h

/-- Settles O4: the word is within its bits, so it is the one placed; its kind says what the port then holds. -/
theorem placedTableWordRuns : Obligations.PlacedTableWordRuns := by
  intro s nbits w i h
  obtain ⟨hw, hd⟩ := decodeTableWord_eq_some h
  unfold State.withFetchWord
  rw [Nat.mod_eq_of_lt hw]
  cases ht : tableWord w with
  | command c => exact ⟨c, step_command rfl (by rwa [ht] at hd)⟩
  | control u => exact ⟨s.cmdPort, step_control_ok rfl (by rwa [ht] at hd)⟩

/-! ### The micro-operations never fault (spec/60_exceptions.md R177) -/

/-- Settles O38: what every well-formed micro-operation leaves as it is. -/
theorem microOperationsNeverFault : Obligations.MicroOperationsNeverFault :=
  fun _ s hi hwf => exec_microOperation hi hwf s

end Sys2Proof.Proofs
end

section
/-! PROOFS. What every step keeps and what every command answers (spec/10_state.md R22, R28, R37,
40_commands.md R91). -/

namespace Sys2Proof.Proofs
open Sys2Proof.Machine

/-! ### One command word, from taking it to its response (spec/40_commands.md R90, R91) -/

/-- What a command word does once it stands on the port: its command behind the gate, or ILLEGAL_CMD (R90). -/
def wordEffect (c : BitVec 16) (s : State) : State :=
  match decodeCommand c with
  | .ok i => gate (legalIn i) (commandEffect i) s
  | .error _ => illegalCommand s

theorem wordEffect_of_ok {c : BitVec 16} {i : Instr} (hc : decodeCommand c = .ok i) (s : State) :
    wordEffect c s = gate (legalIn i) (commandEffect i) s := by
  rw [wordEffect, hc]

theorem wordEffect_of_error {c : BitVec 16} {e : DecodeError} (hc : decodeCommand c = .error e) (s : State) :
    wordEffect c s = illegalCommand s := by
  rw [wordEffect, hc]

theorem step_word {s : State} {c : BitVec 16} {rest : List Event} (hs : s.events = .command c :: rest) :
    step s = .next (wordEffect c { s with cmdPort := c, events := rest }) := by
  cases hc : decodeCommand c with
  | ok i => rw [step_command hs hc, exec_eq_gate (decodeCommand_ok hc), wordEffect_of_ok hc]
  | error e => rw [step_illegal hs (by rw [hc]; rfl), wordEffect_of_error hc]

/-- All a command word can do: in FAULT only respond, else raise a fault or have a legal command's effect. -/
theorem wordEffect_induction {P : State → Prop} {c : BitVec 16} {s : State}
    (hignored : s.phase = .fault → P (respondStatus s))
    (hfault : ∀ cause, cause ≠ .none → P (raiseFault cause s))
    (heffect : ∀ i, decodeCommand c = .ok i → s.phase ≠ .fault → legalIn i s.phase = true →
      P (commandEffect i s)) :
    P (wordEffect c s) := by
  cases hc : decodeCommand c with
  | ok i =>
    rw [wordEffect_of_ok hc]
    obtain ⟨hp, hg⟩ | ⟨hp, hl, hg⟩ | ⟨hp, hl, hg⟩ := gate_cases (legalIn i) (commandEffect i) s
    · exact hg ▸ hignored hp
    · exact hg ▸ heffect i hc hp hl
    · exact hg ▸ hfault .sequence nofun
  | error e =>
    rw [wordEffect_of_error hc]
    by_cases hp : s.phase = .fault
    · rw [illegalCommand_of_fault hp]; exact hignored hp
    · rw [illegalCommand_of_ne_fault hp]; exact hfault .illegalCmd nofun

/-- The effect of a legal command, kind by kind: a call begins, takes a byte, is too long or ends, or one byte is
read (R92 to R96, R99). -/
theorem commandEffect_induction {P : State → Prop} {i : Instr} {s : State} (hi : IsCommand i = true)
    (hl : legalIn i s.phase = true)
    (hstart : P (respondStatus { undefDigest (initState s) with phase := .absorb }))
    (hdata : ∀ b, s.phase = .absorb → s.len ≠ maxLen → P (respondStatus (pushByte b s)))
    (hlength : P (raiseFault .length s))
    (hfinish : P (respondStatus { discardState (serialise (padding s)) with phase := .done }))
    (hread : ∀ b, P (respond b s)) :
    P (commandEffect i s) := by
  cases i with
  | start => exact hstart
  | data b =>
    rw [commandEffect]
    split
    · exact hlength
    · next hlen => exact hdata b (of_decide_eq_true hl) hlen
  | finish => exact hfinish
  | rddg x | rdhx x | stat => exact hread _
  | _ => cases hi

/-! ### CAUSE is 0 exactly outside FAULT (spec/10_state.md R22) -/

theorem statusOk_of_cause_none {s : State} (hc : s.cause = .none) (hp : s.phase ≠ .fault) : StatusOk s :=
  ⟨fun _ => hp, fun _ => hc⟩

theorem statusOk_raiseFault {c : Cause} (hc : c ≠ .none) (s : State) : StatusOk (raiseFault c s) :=
  ⟨fun h => absurd h hc, fun h => absurd rfl h⟩

theorem statusOk_congr {s t : State} (hp : t.phase = s.phase) (hc : t.cause = s.cause) :
    StatusOk t ↔ StatusOk s := by
  rw [StatusOk, StatusOk, hp, hc]

theorem statusOk_wordEffect {s : State} (hok : StatusOk s) (c : BitVec 16) : StatusOk (wordEffect c s) := by
  refine wordEffect_induction (fun _ => hok) (fun cause hc => statusOk_raiseFault hc s) fun i hi hp hl => ?_
  have hc : s.cause = .none := hok.mpr hp
  refine commandEffect_induction (decodeCommand_ok hi) hl ?_ (fun b hb _ => ?_) ?_ ?_ (fun b => hok)
  · exact statusOk_of_cause_none hc nofun
  · exact statusOk_of_cause_none (by simp [hc]) (by simp [hb])
  · exact statusOk_raiseFault (c := .length) nofun s
  · exact statusOk_of_cause_none (by simp [hc]) nofun

/-- Settles O20, event by event. -/
theorem statusInvariantKept : Obligations.StatusInvariantKept := by
  intro s t hok h
  cases hs : s.events with
  | nil => rw [step_no_event hs] at h; cases h; exact hok
  | cons e rest =>
    cases e with
    | command c => rw [step_word hs] at h; cases h; exact statusOk_wordEffect (by exact hok) c
    | reset => rw [step_reset hs] at h; cases h; exact statusOk_of_cause_none rfl nofun
    | control u =>
      obtain ⟨hphase, hcause⟩ := step_control_keeps_phase_and_cause hs h
      exact (statusOk_congr hphase hcause).mpr hok

/-! ### N = LEN mod 64 in ABSORB (spec/10_state.md R28) -/

theorem fillOk_of_phase_ne {s : State} (hp : s.phase ≠ .absorb) : FillOk s := fun h => absurd h hp

theorem fillOk_pushByte {s : State} (hfill : FillOk s) (hp : s.phase = .absorb) (hlen : s.len ≠ maxLen)
    (b : Byte) : FillOk (pushByte b s) := by
  intro _
  have hn := hfill hp
  rw [pushByte_n, pushByte_len hlen, len_succ_toNat hlen, BitVec.toNat_add, hn]
  exact Nat.mod_add_mod _ _ _

theorem fillOk_wordEffect {s : State} (hfill : FillOk s) (c : BitVec 16) : FillOk (wordEffect c s) := by
  refine wordEffect_induction (fun _ => hfill) (fun cause _ => fillOk_of_phase_ne nofun) fun i hi _ hl => ?_
  exact commandEffect_induction (decodeCommand_ok hi) hl (fun _ => rfl)
    (fun b hp hlen => fillOk_pushByte hfill hp hlen b) (fillOk_of_phase_ne nofun) (fillOk_of_phase_ne nofun)
    (fun _ => hfill)

/-! ### The pending events and the responses (spec/40_commands.md R91) -/

theorem illegalCommand_responses (s : State) :
    (illegalCommand s).responses = s.responses ++ [status (illegalCommand s)] := by
  unfold illegalCommand
  split <;> rfl

/-- The response byte of a command word, from the state before it and the state after it. -/
def wordResponse (c : BitVec 16) (s t : State) : Byte :=
  match decodeCommand c with
  | .ok i => responseOf s i t
  | .error _ => status t

/-- A command word takes no other event and gives one response (R91). -/
theorem wordEffect_answers (c : BitVec 16) (s : State) :
    (wordEffect c s).events = s.events ∧
      (wordEffect c s).responses = s.responses ++ [wordResponse c s (wordEffect c s)] := by
  unfold wordResponse
  cases hc : decodeCommand c with
  | ok i =>
    obtain ⟨t, ht, hevents, -, hresponses⟩ := exec_command (decodeCommand_ok hc) s
    obtain rfl : wordEffect c s = t := by
      rw [exec_eq_gate (decodeCommand_ok hc), ← wordEffect_of_ok hc] at ht
      exact Host.Outcome.next.inj ht
    exact ⟨hevents, hresponses⟩
  | error e =>
    rw [wordEffect_of_error hc]
    refine ⟨?_, illegalCommand_responses s⟩
    unfold illegalCommand
    split <;> rfl

theorem step_control_answers_nothing {s t : State} {u : BitVec 10} {rest : List Event}
    (hs : s.events = .control u :: rest) (h : step s = .next t) : t.responses = s.responses ∧ t.events = rest := by
  obtain ⟨i, hi, hwf, hexec⟩ := step_control hs h
  obtain ⟨t', ht', -, -, hresponses, hevents, -⟩ := exec_microOperation hi hwf { s with events := rest }
  obtain rfl : t' = t := Host.Outcome.next.inj (ht'.symm.trans hexec)
  exact ⟨hresponses, hevents⟩

/-- A step gains no event. -/
theorem step_events_subset {s t : State} (h : step s = .next t) : t.events ⊆ s.events := by
  cases hs : s.events with
  | nil => rw [step_no_event hs] at h; cases h; rw [hs]; exact List.Subset.refl _
  | cons e rest =>
    suffices ht : t.events = rest by rw [ht]; exact List.subset_cons_self e rest
    cases e with
    | command c => rw [step_word hs] at h; cases h; exact (wordEffect_answers c _).1
    | reset => rw [step_reset hs] at h; cases h; rfl
    | control u => exact (step_control_answers_nothing hs h).2

/-- Settles O21: CAUSE as in `statusInvariantKept`, the fill index word by word, and no event is gained. -/
theorem engineInvariantKept : Obligations.EngineInvariantKept := by
  rintro s t ⟨hok, hfill, hhost⟩ h
  refine ⟨statusInvariantKept s t hok h, ?_, fun e he => hhost e (step_events_subset h he)⟩
  cases hs : s.events with
  | nil => rw [step_no_event hs] at h; cases h; exact hfill
  | cons e rest =>
    cases e with
    | command c => rw [step_word hs] at h; cases h; exact fillOk_wordEffect (by exact hfill) c
    | reset => rw [step_reset hs] at h; cases h; exact fillOk_of_phase_ne nofun
    | control u => exact absurd (hhost (.control u) (by simp [hs])) nofun

/-- Settles O3: no call is in progress after reset and no event is pending. -/
theorem resetStateMeetsInvariant : Obligations.ResetStateMeetsInvariant :=
  ⟨rfl, rfl, rfl, statusOk_of_cause_none rfl nofun, fillOk_of_phase_ne nofun, List.forall_mem_nil _⟩

/-- Settles O16: what fault entry records, and STATUS of each cause. -/
theorem faultEntryRecordsCause : Obligations.FaultEntryRecordsCause := by
  intro c s hc
  refine ⟨faultTaken_raiseFault c s, ?_⟩
  rw [raiseFault_responses]
  cases c with
  | none => exact absurd rfl hc
  | illegalCmd | sequence | length => rfl

/-! ### The byte of the response (spec/40_commands.md R91, R95, R96) -/

theorem toNat_eq_mod_iff_setWidth {w k : Nat} {x : BitVec k} {c : BitVec w} :
    x.toNat = c.toNat % 2 ^ k ↔ x = c.setWidth k := by
  rw [← BitVec.toNat_inj, BitVec.toNat_setWidth]

theorem decodeCommand_rddg_iff {c : BitVec 16} {x : BitVec 5} :
    decodeCommand c = .ok (.rddg x) ↔ c &&& 0xFFE0#16 = 0x4000#16 ∧ x = c.setWidth 5 := by
  obtain ⟨-, -, -, hrddg, -⟩ := commandWordPatterns.1 c
  rw [hrddg, ← toNat_eq_mod_iff_setWidth (k := 5)]
  rfl

theorem decodeCommand_rdhx_iff {c : BitVec 16} {x : BitVec 6} :
    decodeCommand c = .ok (.rdhx x) ↔ c &&& 0xFFC0#16 = 0x5000#16 ∧ x = c.setWidth 6 := by
  obtain ⟨-, -, -, -, hrdhx, -⟩ := commandWordPatterns.1 c
  rw [hrdhx, ← toNat_eq_mod_iff_setWidth (k := 6)]
  rfl

theorem responseOf_of_not_done {s : State} (hp : s.phase ≠ .done) (i : Instr) (t : State) :
    responseOf s i t = status t := by
  cases hph : s.phase with
  | done => exact absurd hph hp
  | idle | absorb | fault => simp only [responseOf, hph]

/-- The response of a command word by its bits: a data byte for a read in DONE, else STATUS (R91). -/
theorem wordResponse_eq (c : BitVec 16) (s t : State) :
    wordResponse c s t =
      if s.phase = .done ∧ c &&& 0xFFE0#16 = 0x4000#16 then digestAt s.digest (c.setWidth 5)
      else if s.phase = .done ∧ c &&& 0xFFC0#16 = 0x5000#16 then hexView s.digest (c.setWidth 6)
      else status t := by
  by_cases hp : s.phase = .done
  · by_cases hrddg : c &&& 0xFFE0#16 = 0x4000#16
    · rw [wordResponse, decodeCommand_rddg_iff.mpr ⟨hrddg, rfl⟩, if_pos ⟨hp, hrddg⟩]
      simp only [responseOf, hp]
    by_cases hrdhx : c &&& 0xFFC0#16 = 0x5000#16
    · rw [wordResponse, decodeCommand_rdhx_iff.mpr ⟨hrdhx, rfl⟩, if_neg (hrddg ·.2), if_pos ⟨hp, hrdhx⟩]
      simp only [responseOf, hp]
    rw [wordResponse, if_neg (hrddg ·.2), if_neg (hrdhx ·.2)]
    cases hc : decodeCommand c with
    | ok i =>
      cases i with
      | rddg x => exact absurd (decodeCommand_rddg_iff.mp hc).1 hrddg
      | rdhx x => exact absurd (decodeCommand_rdhx_iff.mp hc).1 hrdhx
      | _ => simp only [responseOf, hp]
    | error e => rfl
  · rw [wordResponse, if_neg (hp ·.1), if_neg (hp ·.1)]
    cases hc : decodeCommand c with
    | ok i => exact responseOf_of_not_done hp i t
    | error e => rfl

/-- A step that takes a command word answers it, and no more (R91). -/
theorem step_word_answers {s : State} {c : BitVec 16} {rest : List Event} (hs : s.events = .command c :: rest) :
    ∃ t, step s = .next t ∧ t.events = rest ∧ t.responses = s.responses ++ [wordResponse c s t] :=
  ⟨_, step_word hs, wordEffect_answers c _⟩

/-- Settles O19: a command word by its one response, any other event by the lemma for its step. -/
theorem oneResponsePerCommand : Obligations.OneResponsePerCommand := by
  refine ⟨fun s c rest hs => ?_, fun s t hno h => ?_⟩
  · obtain ⟨t, ht, hevents, hresponses⟩ := step_word_answers hs
    exact ⟨t, _, ht, hevents, hresponses, wordResponse_eq c s t⟩
  · cases hs : s.events with
    | nil => rw [step_no_event hs] at h; cases h; rfl
    | cons e rest =>
      cases e with
      | command c => exact absurd hs (hno c rest)
      | reset => rw [step_reset hs] at h; cases h; rfl
      | control u => exact (step_control_answers_nothing hs h).1

end Sys2Proof.Proofs
end

section
/-! PROOFS. What no result depends on: locations without a value, and the internal state
(spec/10_state.md R36, R39, R40). -/

namespace Sys2Proof.Proofs
open Sys2Proof.Machine

/-! ### Bytes put through two engines (spec/41_padding.md R111) -/

/-- Two engines hold the same block in progress: H, N and the bytes of BUF below N. -/
def SameFill (s t : State) : Prop :=
  s.h = t.h ∧ s.n = t.n ∧ ∀ i : BitVec 6, i.toNat < s.n.toNat → byteAt s.buf i = byteAt t.buf i

theorem put_sameFill {s t : State} (hsame : SameFill s t) (b : Byte) : SameFill (put b s) (put b t) := by
  obtain ⟨hh, hn, hbelow⟩ := hsame
  have hstored : ∀ i : BitVec 6, i.toNat ≤ s.n.toNat →
      byteAt (setByte s.buf s.n b) i = byteAt (setByte t.buf s.n b) i := by
    intro i hi
    by_cases hin : i = s.n
    · rw [hin, byteAt_setByte_self, byteAt_setByte_self]
    · have hne : i.toNat ≠ s.n.toNat := fun he => hin (BitVec.eq_of_toNat_eq he)
      rw [byteAt_setByte_ne _ _ hin, byteAt_setByte_ne _ _ hin, hbelow i (by omega)]
  refine ⟨?_, by rw [put_n, put_n, hn], fun i hi => ?_⟩
  · rw [put_h, put_h, ← hn, ← hh]
    split
    · next hfull =>
      have hblock : setByte s.buf s.n b = setByte t.buf s.n b :=
        bytes_ext fun i => hstored i (by rw [hfull]; exact Nat.le_of_lt_succ i.isLt)
      rw [hblock]
    · rfl
  · rw [put_buf, put_buf, ← hn]
    rw [put_n, BitVec.toNat_add] at hi
    exact hstored i (Nat.le_of_lt_succ (hi.trans_le (Nat.mod_le _ _)))

theorem putAll_sameFill (l : List Byte) {s t : State} (hsame : SameFill s t) :
    SameFill (putAll l s) (putAll l t) := by
  induction l generalizing s t with
  | nil => exact hsame
  | cons b l ih => exact ih (put_sameFill hsame b)

/-! ### Agreement where R40 defines a value -/

theorem agree_sameFill {s t : State} (h : AgreeWhereDefined s t) (hp : s.phase = .absorb) :
    SameFill s t ∧ s.len = t.len := by
  obtain ⟨-, -, habsorb, -⟩ := h
  obtain ⟨hh, hn, hlen, hbelow⟩ := habsorb hp
  exact ⟨⟨hh, hn, hbelow⟩, hlen⟩

theorem agree_raiseFault (c : Cause) (s t : State) : AgreeWhereDefined (raiseFault c s) (raiseFault c t) :=
  ⟨rfl, rfl, nofun, nofun⟩

theorem agree_respond {s t : State} (h : AgreeWhereDefined s t) (b b' : Byte) :
    AgreeWhereDefined (respond b s) (respond b' t) := h

/-- DATA: the same byte is put and LEN rises in both. -/
theorem agree_pushByte {s t : State} (h : AgreeWhereDefined s t) (hp : s.phase = .absorb)
    (hlen : s.len ≠ maxLen) (b : Byte) : AgreeWhereDefined (pushByte b s) (pushByte b t) := by
  obtain ⟨hsame, hlens⟩ := agree_sameFill h hp
  obtain ⟨hphase, hcause, -, -⟩ := h
  have hput := put_sameFill (s := { s with len := s.len + 1 }) (t := { t with len := t.len + 1 }) hsame b
  rw [← pushByte_eq hlen, ← pushByte_eq (hlens ▸ hlen)] at hput
  obtain ⟨hh, hn, hbelow⟩ := hput
  refine ⟨by simp [hphase], by simp [hcause], fun _ => ⟨hh, hn, ?_, hbelow⟩, fun hd => ?_⟩
  · rw [pushByte_len hlen, pushByte_len (hlens ▸ hlen), hlens]
  · rw [pushByte_phase, hp] at hd
    cases hd

/-- FINISH: the padding puts the same bytes, so the digest is the same. -/
theorem padding_h_eq {s t : State} (hsame : SameFill s t) (hlen : s.len = t.len) :
    (padding s).h = (padding t).h := by
  rw [padding_eq, padding_eq, ← hsame.2.1, ← hlen]
  exact (putAll_sameFill _ hsame).1

theorem agree_commandEffect {i : Instr} (hi : IsCommand i = true) {s t : State} (h : AgreeWhereDefined s t)
    (hl : legalIn i s.phase = true) : AgreeWhereDefined (commandEffect i s) (commandEffect i t) := by
  have ⟨_, hcause, _, _⟩ := h
  cases i with
  | start =>
    exact ⟨rfl, hcause, fun _ => ⟨rfl, rfl, rfl, fun i hi => absurd hi (Nat.not_lt_zero _)⟩, nofun⟩
  | data b =>
    have hp : s.phase = .absorb := of_decide_eq_true hl
    have hlens := (agree_sameFill h hp).2
    by_cases hlen : s.len = maxLen
    · rw [commandEffect, commandEffect, if_pos hlen, if_pos (hlens ▸ hlen)]
      exact agree_raiseFault .length s t
    · rw [commandEffect, commandEffect, if_neg hlen, if_neg (hlens ▸ hlen)]
      exact agree_respond (agree_pushByte h hp hlen b) _ _
  | finish =>
    obtain ⟨hsame, hlen⟩ := agree_sameFill h (of_decide_eq_true hl)
    refine ⟨rfl, by simp [commandEffect, hcause], nofun, fun _ => ?_⟩
    exact congrArg wordsToBytes (padding_h_eq hsame hlen)
  | rddg x | rdhx x | stat => exact agree_respond h _ _
  | _ => cases hi

theorem agree_gate {i : Instr} (hi : IsCommand i = true) {s t : State} (h : AgreeWhereDefined s t) :
    AgreeWhereDefined (gate (legalIn i) (commandEffect i) s) (gate (legalIn i) (commandEffect i) t) := by
  have hphase : s.phase = t.phase := h.1
  by_cases hp : s.phase = .fault
  · rw [gate_fault hp, gate_fault (hphase ▸ hp)]
    exact agree_respond h _ _
  · cases hl : legalIn i s.phase with
    | true =>
      rw [gate_legal hp hl, gate_legal (hphase ▸ hp) (hphase ▸ hl)]
      exact agree_commandEffect hi h hl
    | false =>
      rw [gate_sequence hp hl, gate_sequence (hphase ▸ hp) (hphase ▸ hl)]
      exact agree_raiseFault .sequence s t

theorem agree_wordEffect {s t : State} (h : AgreeWhereDefined s t) (c : BitVec 16) :
    AgreeWhereDefined (wordEffect c s) (wordEffect c t) := by
  cases hc : decodeCommand c with
  | ok i =>
    rw [wordEffect_of_ok hc, wordEffect_of_ok hc]
    exact agree_gate (decodeCommand_ok hc) h
  | error e =>
    have hphase : s.phase = t.phase := h.1
    rw [wordEffect_of_error hc, wordEffect_of_error hc]
    by_cases hp : s.phase = .fault
    · rw [illegalCommand_of_fault hp, illegalCommand_of_fault (hphase ▸ hp)]
      exact agree_respond h _ _
    · rw [illegalCommand_of_ne_fault hp, illegalCommand_of_ne_fault (hphase ▸ hp)]
      exact agree_raiseFault .illegalCmd s t

/-! ### The response (spec/40_commands.md R91) -/

/-- A response shows STATUS after the command and, in DONE, DIGEST: nothing else of the two states. -/
theorem wordResponse_congr {c : BitVec 16} {s s' t t' : State} (hp : s.phase = t.phase)
    (hd : s.phase = .done → s.digest = t.digest) (hstatus : status s' = status t') :
    wordResponse c s s' = wordResponse c t t' := by
  rw [wordResponse_eq, wordResponse_eq, ← hp, hstatus]
  by_cases hdone : s.phase = .done
  · rw [hd hdone]
  · simp only [hdone, false_and, if_false]

/-- Settles O55: a command word keeps the agreement, which fixes the response; reset leaves no location a value. -/
theorem undefinedLocationsNeverMatter : Obligations.UndefinedLocationsNeverMatter := by
  refine ⟨fun s t c rest rest' h hs ht => ?_, fun s t rest rest' hs ht => ?_⟩
  · obtain ⟨s', hs', -, hrs⟩ := step_word_answers hs
    obtain ⟨t', ht', -, hrt⟩ := step_word_answers ht
    have hagree : AgreeWhereDefined s' t' := by
      rw [step_word hs] at hs'
      rw [step_word ht] at ht'
      cases hs'
      cases ht'
      exact agree_wordEffect (by exact h) c
    have ⟨hphase, _, _, hdigest⟩ := h
    have hstatus : status s' = status t' := status_congr hagree.1 hagree.2.1
    exact ⟨s', t', _, hs', ht', hagree, hrs, wordResponse_congr hphase hdigest hstatus ▸ hrt⟩
  · exact ⟨_, _, step_reset hs, step_reset ht, rfl, rfl, nofun, nofun⟩

/-! ### The phase and the cause (spec/40_commands.md R98) -/

/-- The table of R98 reads PHASE, CAUSE and, in ABSORB, whether LEN is at its greatest value. -/
theorem wordOutcome_congr {s t : State} (hp : s.phase = t.phase) (hc : s.cause = t.cause)
    (hlen : s.phase = .absorb → (s.len = maxLen ↔ t.len = maxLen)) (c : BitVec 16) :
    wordOutcome s c = wordOutcome t c := by
  unfold wordOutcome
  cases hd : decodeCommand c with
  | ok i =>
    cases hph : s.phase with
    | absorb =>
      have hmax := hlen hph
      simp only [len_eq_maxLen_iff] at hmax
      simp only [commandOutcome, ← hp, hph, hc, hmax]
    | fault => simp only [commandOutcome, ← hp, hph, hc]
    | idle | done =>
      simp only [commandOutcome, ← hp, hph, hc]
      cases i <;> rfl
  | error e => simp only [hp, hc]

/-- Settles O56: STATUS after the word is fixed by the table of R98, and with it the response. -/
theorem internalStateNeverExposed : Obligations.InternalStateNeverExposed := by
  intro s t c rest rest' hp hc hd hlen hs ht
  obtain ⟨s', hs', -, hrs⟩ := step_word_answers hs
  obtain ⟨t', ht', -, hrt⟩ := step_word_answers ht
  obtain ⟨_, hs'', houts⟩ := step_wordOutcome hs
  obtain ⟨_, ht'', houtt⟩ := step_wordOutcome ht
  obtain rfl := Host.Outcome.next.inj (hs'.symm.trans hs'')
  obtain rfl := Host.Outcome.next.inj (ht'.symm.trans ht'')
  rw [wordOutcome_congr hp hc hlen, ← houtt] at houts
  have hstatus : status s' = status t' :=
    status_congr (congrArg Prod.fst houts) (congrArg Prod.snd houts)
  exact ⟨s', t', _, hs', ht', hrs, wordResponse_congr hp hd hstatus ▸ hrt⟩

end Sys2Proof.Proofs
end

section
/-! PROOFS. Reads are repeatable (spec/20_memory.md R55). -/

namespace Sys2Proof.Proofs
open Sys2Proof.Machine

/-- A word that is no read is answered with STATUS. -/
theorem wordResponse_of_not_isRead {c : BitVec 16} (hc : ¬ IsRead c) (s t : State) :
    wordResponse c s t = status t := by
  rw [wordResponse_eq, if_neg fun h => hc (.inl h.2), if_neg fun h => hc (.inr h.2)]

theorem not_isRead_statWord : ¬ IsRead statWord := by unfold IsRead; decide

theorem decodeCommand_statWord : decodeCommand statWord = .ok .stat := by decide

/-- A read that succeeds responds and changes nothing but the port (R55). -/
theorem step_read {s : State} {c : BitVec 16} {rest : List Event}
    (hread : c = statWord ∨ (s.phase = .done ∧ IsRead c)) (hs : s.events = .command c :: rest) :
    step s = .next { s with cmdPort := c, events := rest, responses := s.responses ++ [wordResponse c s s] } := by
  obtain rfl | ⟨hp, hrddg | hrdhx⟩ := hread
  · rw [step_command hs decodeCommand_statWord, statReadsStatus,
      wordResponse_of_not_isRead not_isRead_statWord]
    rfl
  · have hc := decodeCommand_rddg_iff.mpr ⟨hrddg, rfl⟩
    have hbyte : wordResponse c s s = digestAt s.digest (c.setWidth 5) := by
      rw [wordResponse, hc]
      simp only [responseOf, hp]
    rw [step_command hs hc, hbyte]
    exact exec_of_legal rfl (p := .done) hp ⟨nofun, rfl⟩
  · have hc := decodeCommand_rdhx_iff.mpr ⟨hrdhx, rfl⟩
    have hbyte : wordResponse c s s = hexView s.digest (c.setWidth 6) := by
      rw [wordResponse, hc]
      simp only [responseOf, hp]
    rw [step_command hs hc, hbyte]
    exact exec_of_legal rfl (p := .done) hp ⟨nofun, rfl⟩

/-- Settles O28: the first read leaves what the second read's byte depends on. -/
theorem readsAreRepeatable : Obligations.ReadsAreRepeatable := by
  intro s c rest hread hs
  refine ⟨wordResponse c s s, ?_⟩
  rw [run_succ (step_read hread hs), run_succ (step_read (by exact hread) rfl), run_zero,
    wordResponse_congr (t := s) (t' := s) rfl (fun _ => rfl) rfl, List.append_assoc]
  rfl

end Sys2Proof.Proofs
end

section
/-! PROOFS. The micro-operations beside the commands: a stored byte, START and DATA as their micro-operations, and
orders that keep the data dependencies (spec/41_padding.md R111, 40_commands.md R92, R93, 20_memory.md R65). -/

namespace Sys2Proof.Proofs
open Sys2Proof.Machine

/-! ### A stored byte (spec/41_padding.md R110 to R116) -/

/-- R116: byte `i` of the big-endian bit length, as a number. -/
theorem lengthByte_eq_ofNat (len : BitVec 61) (i : BitVec 3) :
    lengthByte len i = BitVec.ofNat 8 (8 * len.toNat / 2 ^ (56 - 8 * i.toNat)) := by
  refine BitVec.eq_of_toNat_eq ?_
  rw [lengthByte, BitVec.extractLsb'_toNat, bitLength, toNat_append_eq_add, BitVec.toNat_ofNat,
    Nat.shiftRight_eq_div_pow]
  rfl

/-- A byte-storing micro-operation is PUT of its byte, where PUSH has first counted it (R110). -/
theorem exec_stored {i : Instr} {s : State} {b : Byte} (h : storedByte i s = some b) :
    ∃ len fresh, exec i s = .next (put b { s with len := len, fresh := fresh }) ∧ (i ≠ .push → len = s.len) ∧
      (i = .push → s.len.toNat < 2 ^ 61 - 1 → len.toNat = s.len.toNat + 1) := by
  cases i with
  | push =>
    cases h
    have hexec : exec .push s = .next (put (s.cmdPort.setWidth 8) (countByte s)) := rfl
    rw [hexec]
    by_cases hmax : s.len = maxLen
    · rw [countByte, if_pos hmax]
      exact ⟨_, _, rfl, fun hi => absurd rfl hi, fun _ hlt => absurd ((len_eq_maxLen_iff s).mp hmax) hlt.ne⟩
    · rw [countByte_ok hmax]
      exact ⟨_, _, rfl, fun hi => absurd rfl hi, fun _ _ => len_succ_toNat hmax⟩
  | padm | padz => cases h; exact ⟨s.len, s.fresh, rfl, fun _ => rfl, nofun⟩
  | padl x =>
    cases h
    rw [← lengthByte_eq_ofNat]
    exact ⟨s.len, s.fresh, rfl, fun _ => rfl, nofun⟩
  | _ => cases h

/-- Settles O30: PUT by whether the byte fills the buffer, after what PUSH alone does to LEN. -/
theorem putStoresByte : Obligations.PutStoresByte := by
  intro i s b hb
  obtain ⟨len, fresh, hexec, hkept, hcounted⟩ := exec_stored hb
  have hstored : byteAt (setByte s.buf s.n b) s.n = b := byteAt_setByte_self _ _ _
  have hother : ∀ j, j ≠ s.n → byteAt (setByte s.buf s.n b) j = byteAt s.buf j :=
    fun _ hj => byteAt_setByte_ne _ _ hj
  by_cases hn : s.n = 63#6
  · have hnat : s.n.toNat = 63 := by rw [hn]; rfl
    refine ⟨_, hexec, ?_⟩
    rw [put_fill (by exact hn), compress_eq]
    exact ⟨hstored, hother, fun hlt => absurd hnat hlt.ne, fun _ => ⟨rfl, rfl, rfl⟩, hkept, hcounted⟩
  · have hnat : s.n.toNat ≠ 63 := fun h => hn (BitVec.eq_of_toNat_eq h)
    refine ⟨_, hexec, ?_⟩
    rw [put_store (by exact hn)]
    exact ⟨hstored, hother, fun _ => ⟨toNat_fill_index_succ hn, rfl⟩, fun h => absurd h hnat, hkept, hcounted⟩

/-! ### START and DATA as their micro-operations (spec/40_commands.md R92, R93) -/

theorem start_legal {s : State} (hp : s.phase = .idle ∨ s.phase = .done) :
    s.phase ≠ .fault ∧ legalIn .start s.phase = true := by
  rcases hp with hp | hp <;> simp [legalIn, hp]

theorem cmdArg_dataWord (b : Byte) : cmdArg (0x20#8 ++ b) = b := BitVec.extractLsb'_append_eq_right

/-- PUSH of a given byte does not look at the port. -/
theorem pushByte_with_cmdPort {b : Byte} {s : State} (hlen : s.len ≠ maxLen) (c : BitVec 16) :
    pushByte b { s with cmdPort := c } = { pushByte b s with cmdPort := c } := by
  by_cases hn : s.n = 63#6
  · rw [pushByte_fill hlen hn, pushByte_fill (by exact hlen) (by exact hn)]
  · rw [pushByte_store hlen hn, pushByte_store (by exact hlen) (by exact hn)]

/-- Settles O39: INIT is the datapath part of START, and PUSH with the byte on the port is that of DATA. -/
theorem startAndDataAreTheirMicroOperations : Obligations.StartAndDataAreTheirMicroOperations := by
  refine ⟨fun s hp => ?_, fun s b hp hlt => ?_⟩
  · exact ⟨initState s, _, rfl, exec_of_legal rfl rfl (start_legal hp), rfl⟩
  · have hlen : s.len ≠ maxLen := fun h => absurd ((len_eq_maxLen_iff s).mp h) hlt.ne
    refine ⟨pushByte (cmdArg (0x20#8 ++ b)) { s with cmdPort := 0x20#8 ++ b }, _, rfl,
      exec_of_legal rfl hp ⟨nofun, rfl⟩, ?_⟩
    rw [cmdArg_dataWord, pushByte_with_cmdPort hlen, commandEffect, if_neg hlen, ← pushByte_responses b s]
    rfl

/-! ### Orders that keep the data dependencies (spec/20_memory.md R65) -/

theorem expandScheduleWord_roundStep {t u : BitVec 6} (htu : t ≠ u) (s : State) :
    roundStep u (expandScheduleWord t s) = expandScheduleWord t (roundStep u s) := by
  simp only [roundStep, expandScheduleWord, wordAt_setWord_ne _ _ htu.symm]

/-- Settles O58: RND reads another word of W than EXP writes, and LDV reads only H and writes only V. -/
theorem independentMicroOperationsCommute : Obligations.IndependentMicroOperationsCommute := by
  intro s t u x ht
  have hexp (l : List Instr) (s : State) : runAll (.exp t :: l) s = runAll l (expandScheduleWord t s) := by
    rw [runAll, exec_exp_of_le ht]
  have hrnd (l : List Instr) (s : State) : runAll (.rnd u :: l) s = runAll l (roundStep u s) := rfl
  have hldv (l : List Instr) (s : State) : runAll (.ldv :: l) s = runAll l (loadWorking s) := rfl
  refine ⟨fun htu => ?_, ?_, rfl, ?_⟩
  · rw [hexp, hrnd, hrnd, hexp, expandScheduleWord_roundStep htu]
  · rw [hexp, hldv, hldv, hexp]
    rfl
  · rw [hexp, hrnd]
    exact ⟨_, rfl, rfl⟩

end Sys2Proof.Proofs
end

section
/-! PROOFS. The hex view read back (spec/44_accumulate_output.md R168 to R170). -/

namespace Sys2Proof.Proofs
open Sys2Proof.Machine

theorem hexdigit_is_lowercase (x : BitVec 4) :
    (0x30 ≤ (hexdigit x).toNat ∧ (hexdigit x).toNat ≤ 0x39) ∨
      (0x61 ≤ (hexdigit x).toNat ∧ (hexdigit x).toNat ≤ 0x66) := by
  have hx := x.isLt
  rw [toNat_hexdigit]
  split <;> omega

theorem unhex_hexdigit (x : BitVec 4) : unhex (hexdigit x) = x := by
  revert x
  decide

theorem hexView_even (d : Vector Byte 32) (i : BitVec 5) :
    hexView d (BitVec.ofNat 6 (2 * i.toNat)) = hexdigit ((digestAt d i).extractLsb' 4 4) := by
  have hhalf : (BitVec.ofNat 6 (2 * i.toNat)).extractLsb' 1 5 = i := by revert i; decide
  have heven : (BitVec.ofNat 6 (2 * i.toNat)).extractLsb' 0 1 = 0#1 := by revert i; decide
  rw [hexView, hhalf, if_pos heven]

theorem hexView_odd (d : Vector Byte 32) (i : BitVec 5) :
    hexView d (BitVec.ofNat 6 (2 * i.toNat + 1)) = hexdigit ((digestAt d i).extractLsb' 0 4) := by
  have hhalf : (BitVec.ofNat 6 (2 * i.toNat + 1)).extractLsb' 1 5 = i := by revert i; decide
  have hodd : (BitVec.ofNat 6 (2 * i.toNat + 1)).extractLsb' 0 1 ≠ 0#1 := by revert i; decide
  rw [hexView, hhalf, if_neg hodd]

/-- Settles O46: the two characters of a byte are the digits of its nibbles, and `unhex` reads each back. -/
theorem hexViewLosesNothing : Obligations.HexViewLosesNothing := by
  refine fun d => ⟨fun j => ?_, fun i => ?_⟩
  · obtain ⟨x, hview, -⟩ := hexView_eq_hexdigit d j
    rw [hview]
    exact hexdigit_is_lowercase x
  · rw [hexView_even, hexView_odd, unhex_hexdigit, unhex_hexdigit]
    exact (high_append_low (k := 4) (n := 4) (digestAt d i)).symm

end Sys2Proof.Proofs
end

section
/-! PROOFS. The schedule of a block (spec/42_schedule.md R125, R127, R128). -/

namespace Sys2Proof.Proofs
open Sys2Proof.Machine

/-- Words written in order from index `lo` on, each computed from the schedule so far. -/
def writeWords (value : Vector Word 64 → BitVec 6 → Word) (lo count : Nat) (w : Vector Word 64) : Vector Word 64 :=
  (indices 6 lo count).foldl (fun w t => setWord w t (value w t)) w

/-- Where each value reads only words below its own index, the words below `lo` stay, and every word written has its
value in the schedule that results, since what it read is not written again. -/
theorem writeWords_spec {value : Vector Word 64 → BitVec 6 → Word} {first : Nat}
    (hreads : ∀ {t : BitVec 6} {w w'}, first ≤ t.toNat → SameBelow t.toNat w w' → value w t = value w' t)
    (count : Nat) : ∀ (lo : Nat) (w : Vector Word 64), first ≤ lo → lo + count ≤ 64 →
      SameBelow lo (writeWords value lo count w) w ∧
      ∀ t : BitVec 6, lo ≤ t.toNat → t.toNat < lo + count →
        wordAt (writeWords value lo count w) t = value (writeWords value lo count w) t := by
  induction count with
  | zero => exact fun lo w _ _ => ⟨fun _ _ => rfl, fun t hlo hhi => absurd hhi (Nat.not_lt.mpr hlo)⟩
  | succ c ih =>
    intro lo w hfirst hle
    obtain ⟨u, hu⟩ : ∃ u : BitVec 6, u = BitVec.ofNat 6 lo := ⟨_, rfl⟩
    have hlo : u.toNat = lo := by rw [hu, BitVec.toNat_ofNat, Nat.mod_eq_of_lt (by omega)]
    have hwrite : writeWords value lo (c + 1) w = writeWords value (lo + 1) c (setWord w u (value w u)) := by
      rw [writeWords, indices_succ, ← hu]
      rfl
    obtain ⟨hkept, hwritten⟩ := ih (lo + 1) (setWord w u (value w u)) (by omega) (by omega)
    rw [← hwrite] at hkept hwritten
    have hbelow : SameBelow lo (writeWords value lo (c + 1) w) w := by
      intro t ht
      have hne : t ≠ u := fun h => by rw [h, hlo] at ht; exact lt_irrefl _ ht
      rw [hkept t (by omega), wordAt_setWord_ne _ _ hne]
    refine ⟨hbelow, fun t hge hlt => ?_⟩
    by_cases htu : t = u
    · rw [htu, hkept u (by omega), wordAt_setWord_self]
      exact (hreads (by omega) (hlo ▸ hbelow)).symm
    · have hne : t.toNat ≠ lo := fun h => htu (BitVec.eq_of_toNat_eq (h.trans hlo.symm))
      exact hwritten t (by omega) (by omega)

/-- The schedule is the block's words and then the recurrence, written in order (R125). -/
theorem schedule_eq (b : Vector Byte 64) :
    schedule b = writeWords expandWord 16 48
      (writeWords (fun _ t => blockWord b (t.setWidth 4)) 0 16 (Vector.replicate 64 0)) := by
  have hindices : indices 6 0 16 = (indices 4 0 16).map (0#2 ++ ·) := by decide
  have hwidth (t : BitVec 4) : (0#2 ++ t).setWidth 4 = t := by revert t; decide
  simp only [writeWords, hindices, List.foldl_map, hwidth]
  unfold schedule scheduleFrom
  rfl

theorem expands_spec (w : Vector Word 64) :
    SameBelow 16 (writeWords expandWord 16 48 w) w ∧
    ∀ t : BitVec 6, 16 ≤ t.toNat → t.toNat < 64 →
      wordAt (writeWords expandWord 16 48 w) t = expandWord (writeWords expandWord 16 48 w) t := by
  have hreads {t : BitVec 6} {w w' : Vector Word 64} (ht : 16 ≤ t.toNat) (hsame : SameBelow t.toNat w w') :
      expandWord w t = expandWord w' t := expandWord_sameBelow hsame rfl ht
  exact writeWords_spec hreads 48 16 w le_rfl le_rfl

theorem wordAt_schedule_load (b : Vector Byte 64) {t : BitVec 6} (ht : t.toNat < 16) :
    wordAt (schedule b) t = blockWord b (t.setWidth 4) := by
  have hloads := writeWords_spec (value := fun _ t => blockWord b (t.setWidth 4)) (first := 0)
    (fun _ _ => rfl) 16 0
  rw [schedule_eq, (expands_spec _).1 t ht]
  exact (hloads _ le_rfl (by decide)).2 t (Nat.zero_le _) (by omega)

theorem wordAt_schedule_expand (b : Vector Byte 64) {t : BitVec 6} (ht : 16 ≤ t.toNat) :
    wordAt (schedule b) t = expandWord (schedule b) t := by
  rw [schedule_eq]
  exact (expands_spec _).2 t ht t.isLt

/-- Settles O48: the loads and then the expansions, each word as the spec's rule gives it. -/
theorem scheduleMeetsRecurrence : Obligations.ScheduleMeetsRecurrence := by
  refine fun b => ⟨fun t => ?_, fun t ht => ?_⟩
  · have hindex : (BitVec.ofNat 6 t.toNat).toNat < 16 := by rw [BitVec.toNat_ofNat]; omega
    have hword : (BitVec.ofNat 6 t.toNat).setWidth 4 = t := by revert t; decide
    rw [wordAt_schedule_load b hindex, hword, blockWord_eq]
  · rw [← expandWord_eq _ ht, wordAt_schedule_expand b ht]

end Sys2Proof.Proofs
end

section
/-! PROOFS. The padding ends on a block boundary (spec/41_padding.md R113, R117, R118). -/

namespace Sys2Proof.Proofs
open Sys2Proof.Machine

theorem length_add_zeroBytes (length : Nat) : (length + 9 + zeroBytes length) % 64 = 0 := by
  unfold zeroBytes
  omega

/-- PADM and the zeros as bytes put in order. -/
theorem runAll_marker_and_zeros (s : State) :
    runAll (.padm :: List.replicate (zeroBytes s.n.toNat) .padz) s =
      .next (putAll (markerByte :: List.replicate (zeroBytes s.n.toNat) 0x00#8) s) := by
  rw [runAll_padm, runAll_replicate_padz, iterate_padZero]
  rfl

theorem runAll_padl (l : List (BitVec 3)) (s : State) :
    runAll (l.map .padl) s = .next (putAll (l.map (lengthByte s.len)) s) := by
  rw [runAll_map (op := padLengthByte) (fun _ _ => rfl), foldl_padLengthByte]

/-- The marker and the zeros reach index 56, where the length field goes. -/
theorem fill_index_at_length_field (n : BitVec 6) : n + BitVec.ofNat 6 (zeroBytes n.toNat + 1) = 56#6 := by
  refine BitVec.eq_of_toNat_eq ?_
  have hblock := length_add_zeroBytes n.toNat
  rw [BitVec.toNat_add, BitVec.toNat_ofNat, BitVec.toNat_ofNat]
  omega

theorem padding_n (s : State) : (padding s).n = 0#6 := by
  refine BitVec.eq_of_toNat_eq ?_
  have hblock := length_add_zeroBytes s.n.toNat
  have hlength : (padBytes s.n s.len).length = zeroBytes s.n.toNat + 9 := by
    simp [padBytes, indices, zeroCount_eq (Nat.mod_eq_of_lt s.n.isLt).symm]
  rw [padding_eq, putAll_n, hlength, BitVec.toNat_add, BitVec.toNat_ofNat, BitVec.toNat_ofNat]
  omega

/-- Settles O49: the fill index rises by one a byte, and LEN is not written. -/
theorem paddingFillsWholeBlocks : Obligations.PaddingFillsWholeBlocks := by
  refine ⟨fun s => ?_, length_add_zeroBytes⟩
  have hfill : (putAll (markerByte :: List.replicate (zeroBytes s.n.toNat) 0x00#8) s).n = 56#6 := by
    rw [putAll_n, List.length_cons, List.length_replicate, fill_index_at_length_field]
  have hlen : (putAll (markerByte :: List.replicate (zeroBytes s.n.toNat) 0x00#8) s).len = s.len := putAll_len _ _
  refine ⟨_, runAll_marker_and_zeros s, hfill, hlen, fun i => ?_, padding s, runAll_padSeq s, padding_n s,
    padding_len s⟩
  have hi := i.isLt
  have hindices : ((List.range i.toNat).map fun j => Instr.padl (BitVec.ofNat 3 j)) =
      (indices 3 0 i.toNat).map .padl := by
    rw [List.range_eq_range', indices, List.map_map]
    rfl
  rw [hindices]
  refine ⟨_, runAll_padl _ _, ?_, (putAll_len _ _).trans hlen⟩
  rw [putAll_n, hfill, BitVec.toNat_add, List.length_map, indices, List.length_map, List.length_range',
    BitVec.toNat_ofNat, BitVec.toNat_ofNat]
  omega

theorem length_padMessage (m : List Byte) : (padMessage m).length = m.length + 9 + zeroBytes m.length := by
  simp [padMessage, be64]
  omega

/-- Settles O50: the count of ACC, and the length as the multiple of 64 next after L + 8. -/
theorem oneBlockOrTwo : Obligations.OneBlockOrTwo := by
  refine ⟨count_acc_effectIssues_finish, fun m => ?_⟩
  rw [length_padMessage, zeroBytes]
  omega

end Sys2Proof.Proofs
end

section
/-! PROOFS. A call from START to its last read (spec/10_state.md R14, R40, 40_commands.md R97). -/

namespace Sys2Proof.Proofs
open Sys2Proof.Machine

/-! ### A call in progress (spec/10_state.md R14, R40) -/

/-- What START leaves is a call on the empty message. -/
theorem absorbing_of_start {s : State} (hc : s.cause = .none) : Absorbing (commandEffect .start s) [] :=
  ⟨rfl, hc, rfl, rfl, by simp [commandEffect, hashBlocks], fun i hi => absurd hi (Nat.not_lt_zero _)⟩

/-- Settles O51: START sets H to IV and LEN and N to 0. -/
theorem startAbsorbsEmptyMessage : Obligations.StartAbsorbsEmptyMessage := by
  intro s hok hp
  have hl := start_legal hp
  exact ⟨_, exec_of_legal rfl rfl hl, absorbing_of_start (hok.mpr hl.1)⟩

theorem absorbing_pushByte {s : State} {m : List Byte} (h : Absorbing s m) (hlen : s.len ≠ maxLen) (b : Byte) :
    Absorbing (pushByte b s) (m ++ [b]) := by
  obtain ⟨hphase, hcause, hcount, hfed⟩ := h
  refine ⟨by simp [hphase], by simp [hcause], ?_, ?_⟩
  · rw [pushByte_len hlen, len_succ_toNat hlen, hcount, List.length_append]
    rfl
  · rw [pushByte_eq hlen]
    exact put_fed (by exact hfed) b

theorem len_ne_maxLen {s : State} {m : List Byte} (h : Absorbing s m) (hm : m.length < 2 ^ 61 - 1) :
    s.len ≠ maxLen := by
  obtain ⟨-, -, hcount, -⟩ := h
  exact fun he => absurd (hcount.symm.trans ((len_eq_maxLen_iff s).mp he)) hm.ne

theorem statusOk_of_absorbing {s : State} {m : List Byte} (h : Absorbing s m) : StatusOk s := by
  obtain ⟨hphase, hcause, -⟩ := h
  exact statusOk_of_cause_none hcause (by simp [hphase])

/-- Settles O52: PUSH takes one more byte of the message and answers 0x01. -/
theorem dataExtendsMessage : Obligations.DataExtendsMessage := by
  intro s m b h hm
  have hlen := len_ne_maxLen h hm
  exact ⟨_, exec_data_of_room (statusOk_of_absorbing h) h.1 hlen, absorbing_pushByte h hlen b, rfl⟩

/-! ### A well-formed call, command by command (spec/40_commands.md R97) -/

/-- How far an engine is in a call on `m` with reads `reads`: the words still to come, STAT apart. -/
inductive InCall (m : List Byte) (reads : List (BitVec 16)) : State → List (BitVec 16) → Prop
  /-- START is next. -/
  | start {s : State} (hphase : s.phase = .idle ∨ s.phase = .done) (hcause : s.cause = .none) :
    InCall m reads s (callWords m ++ reads)
  /-- The bytes `taken` are in, the bytes `left` and FINISH are next. -/
  | absorb {s : State} (taken left : List Byte) (hm : m = taken ++ left) (h : Absorbing s taken) :
    InCall m reads s (left.map (fun b => 0x20#8 ++ b) ++ [0x3000#16] ++ reads)
  /-- The digest is latched, only reads are next. -/
  | done {s : State} {left : List (BitVec 16)} (hphase : s.phase = .done) (hcause : s.cause = .none)
    (hdigest : s.digest = sha256 m) (hreads : ∀ c ∈ left, IsRead c) : InCall m reads s left

theorem not_isRead_startWord : ¬ IsRead 0x1000#16 := by unfold IsRead; decide

theorem not_isRead_dataWord (b : Byte) : ¬ IsRead (0x20#8 ++ b) := by unfold IsRead; revert b; decide

theorem dataWord_ne_finishWord (b : Byte) : 0x20#8 ++ b ≠ 0x3000#16 := by revert b; decide

theorem not_isRead_finishWord : ¬ IsRead 0x3000#16 := by unfold IsRead; decide

theorem decodeCommand_dataWord (b : Byte) : decodeCommand (0x20#8 ++ b) = .ok (.data b) :=
  decodeCommandWith_of_encode rfl rfl

theorem callResponse_of_not_isRead {c : BitVec 16} (hc : ¬ IsRead c) (m : List Byte) :
    callResponse m c = if c = 0x3000#16 then 0x02#8 else 0x01#8 := by
  rw [callResponse, if_neg fun h => hc (.inl h), if_neg fun h => hc (.inr h)]

/-- A read in DONE is answered from DIGEST, as the call asks where DIGEST is that of the message. -/
theorem wordResponse_of_isRead {c : BitVec 16} (hc : IsRead c) {s : State} {m : List Byte} (hp : s.phase = .done)
    (hd : s.digest = sha256 m) (t : State) : wordResponse c s t = callResponse m c := by
  rw [wordResponse_eq, callResponse, hd]
  simp only [hp, true_and]
  obtain hrddg | hrdhx := hc
  · rw [if_pos hrddg, if_pos hrddg]
  · rw [if_pos hrdhx, if_pos hrdhx]

/-- The call goes on by one word other than STAT: the response is the call's, and the rest of the call is next. -/
theorem step_inCall {m : List Byte} {reads rest : List (BitVec 16)} {events : List Event} {s : State}
    {c : BitVec 16} (hm : m.length < 2 ^ 61) (hreads : ∀ c ∈ reads, IsRead c) (h : InCall m reads s (c :: rest))
    (hs : s.events = .command c :: events) :
    ∃ t, step s = .next t ∧ InCall m reads t rest ∧ wordResponse c s t = callResponse m c := by
  generalize hwords : c :: rest = words at h
  cases h with
  | start hphase hcause =>
    obtain ⟨rfl, rfl⟩ := List.cons.inj hwords
    have hok : StatusOk s := statusOk_of_cause_none hcause (start_legal hphase).1
    obtain ⟨t, ht, habsorbing⟩ :=
      startAbsorbsEmptyMessage { s with cmdPort := 0x1000#16, events := events } hok hphase
    refine ⟨t, (step_command hs (by decide)).trans ht, .absorb [] m rfl habsorbing, ?_⟩
    rw [wordResponse_of_not_isRead not_isRead_startWord, callResponse_of_not_isRead not_isRead_startWord,
      status_absorb (statusOk_of_absorbing habsorbing) habsorbing.1]
    rfl
  | absorb taken left hsplit habsorbing =>
    cases left with
    | nil =>
      obtain ⟨rfl, rfl⟩ := List.cons.inj hwords
      rw [List.append_nil] at hsplit
      obtain ⟨t, ht, hphase, hcause, hdigest, -⟩ :=
        finishLatchesSha256 { s with cmdPort := 0x3000#16, events := events } taken habsorbing
      rw [← hsplit] at hdigest
      refine ⟨t, (step_command hs (by decide)).trans ht, .done hphase hcause hdigest hreads, ?_⟩
      rw [wordResponse_of_not_isRead not_isRead_finishWord, callResponse_of_not_isRead not_isRead_finishWord,
        status_done hphase hcause]
      rfl
    | cons b left =>
      obtain ⟨rfl, rfl⟩ := List.cons.inj hwords
      have htaken : taken.length < 2 ^ 61 - 1 := by
        rw [hsplit, List.length_append, List.length_cons] at hm
        omega
      obtain ⟨t, ht, habsorbing', -⟩ :=
        dataExtendsMessage { s with cmdPort := 0x20#8 ++ b, events := events } taken b habsorbing htaken
      have hsplit' : m = (taken ++ [b]) ++ left := by rw [hsplit, List.append_assoc]; rfl
      refine ⟨t, (step_command hs (decodeCommand_dataWord b)).trans ht, .absorb _ left hsplit' habsorbing', ?_⟩
      rw [wordResponse_of_not_isRead (not_isRead_dataWord b), callResponse_of_not_isRead (not_isRead_dataWord b),
        status_absorb (statusOk_of_absorbing habsorbing') habsorbing'.1, if_neg (dataWord_ne_finishWord b)]
  | done hphase hcause hdigest hleft =>
    subst hwords
    obtain ⟨hc, hrest⟩ := List.forall_mem_cons.mp hleft
    exact ⟨_, step_read (.inr ⟨hphase, hc⟩) hs, .done hphase hcause hdigest hrest,
      wordResponse_of_isRead hc hphase hdigest _⟩

/-- STAT leaves the call where it is. -/
theorem step_stat_inCall {m : List Byte} {reads words : List (BitVec 16)} {events : List Event} {s : State}
    (h : InCall m reads s words) (hs : s.events = .command statWord :: events) :
    ∃ t, step s = .next t ∧ InCall m reads t words := by
  refine ⟨_, step_read (.inl rfl) hs, ?_⟩
  cases h with
  | start hphase hcause => exact .start hphase hcause
  | absorb taken left hsplit habsorbing => exact .absorb taken left hsplit habsorbing
  | done hphase hcause hdigest hreads => exact .done hphase hcause hdigest hreads

/-- One word of a call, STAT or not. -/
theorem step_call_word {m : List Byte} {reads words : List (BitVec 16)} {events : List Event} {s : State}
    {c : BitVec 16} (hm : m.length < 2 ^ 61) (hreads : ∀ c ∈ reads, IsRead c)
    (h : InCall m reads s ((c :: words).filter fun c => c ≠ statWord)) (hs : s.events = .command c :: events) :
    ∃ t b, step s = .next t ∧ InCall m reads t (words.filter fun c => c ≠ statWord) ∧ t.events = events ∧
      t.responses = s.responses ++ [b] ∧ (c ≠ statWord → b = callResponse m c) := by
  obtain ⟨t, ht, hevents, hresponses⟩ := step_word_answers hs
  by_cases hc : c = statWord
  · subst hc
    obtain ⟨t', ht', hcall⟩ := step_stat_inCall h hs
    obtain rfl := Host.Outcome.next.inj (ht.symm.trans ht')
    exact ⟨t, _, ht, hcall, hevents, hresponses, fun hne => absurd rfl hne⟩
  · rw [List.filter_cons_of_pos (by simpa using hc)] at h
    obtain ⟨t', ht', hcall, hresponse⟩ := step_inCall hm hreads h hs
    obtain rfl := Host.Outcome.next.inj (ht.symm.trans ht')
    exact ⟨t, _, ht, hcall, hevents, hresponses, fun _ => hresponse⟩

/-- A call that has all its words has answered each, and is over. -/
theorem run_inCall {m : List Byte} {reads : List (BitVec 16)} (hm : m.length < 2 ^ 61)
    (hreads : ∀ c ∈ reads, IsRead c) (words : List (BitVec 16)) (rest : List Event) : ∀ s : State,
    InCall m reads s (words.filter fun c => c ≠ statWord) → s.events = words.map .command ++ rest →
    ∃ (t : State) (rs : List Byte), Host.Core.run Sys2Proof.core words.length s = .next t ∧ InCall m reads t [] ∧
      t.events = rest ∧ t.responses = s.responses ++ rs ∧ rs.length = words.length ∧
      ∀ p ∈ words.zip rs, p.1 ≠ statWord → p.2 = callResponse m p.1 := by
  induction words with
  | nil => exact fun s h hs => ⟨s, [], rfl, h, hs, (List.append_nil _).symm, rfl, nofun⟩
  | cons c words ih =>
    intro s h hs
    obtain ⟨t, b, ht, hcall, hevents, hresponses, hb⟩ := step_call_word hm hreads h hs
    obtain ⟨u, rs, hrun, hover, hrest, hall, hlength, hanswers⟩ := ih t hcall hevents
    refine ⟨u, b :: rs, ?_, hover, hrest, ?_, congrArg (· + 1) hlength, ?_⟩
    · rw [List.length_cons, run_succ ht, hrun]
    · rw [hall, hresponses, List.append_assoc]
      rfl
    · rw [List.zip_cons_cons]
      exact List.forall_mem_cons.mpr ⟨hb, hanswers⟩

/-- A call with no word to come holds the digest. -/
theorem inCall_over {m : List Byte} {reads : List (BitVec 16)} {s : State} (h : InCall m reads s []) :
    s.phase = .done ∧ s.cause = .none ∧ s.digest = sha256 m := by
  generalize hwords : [] = words at h
  cases h with
  | start hphase hcause => cases hwords
  | absorb taken left hsplit habsorbing => simp at hwords
  | done hphase hcause hdigest hreads => exact ⟨hphase, hcause, hdigest⟩

/-- Settles O54, word by word along the call. -/
theorem wellFormedCallAnswersDigest : Obligations.WellFormedCallAnswersDigest := by
  intro s m words reads rest hok hphase hm hreads hwords hs
  have hcause : s.cause = .none := hok.mpr (start_legal hphase).1
  have hstart : InCall m reads s (words.filter fun c => c ≠ statWord) := hwords ▸ .start hphase hcause
  obtain ⟨t, rs, hrun, hover, hanswered⟩ := run_inCall hm hreads words rest s hstart hs
  obtain ⟨hdone, hnone, hdigest⟩ := inCall_over hover
  exact ⟨t, rs, hrun, hdone, hnone, hdigest, hanswered⟩

end Sys2Proof.Proofs
end

section
/-! PROOFS. The assembler produces legal words, and expands HASH (spec/30_encoding.md R80, R81). -/

namespace Sys2Proof.Proofs
open Sys2Proof.Machine

/-! ### Legal words (spec/30_encoding.md R80) -/

/-- A command word that decodes. -/
def IsLegalWord (w : InstrWord) : Prop := ∃ (c : BitVec 16) (i : Instr), w = .command c ∧ decodeCommand c = .ok i

theorem isLegalWord_encode {i : Instr} (hi : IsCommand i = true) : IsLegalWord (encode i) := by
  have hwf : i.wellFormedWith Config.hasHex = true := by
    cases i with
    | start | data | finish | rddg | rdhx | stat => rfl
    | _ => cases hi
  cases hw : encode i with
  | command c => exact ⟨c, i, rfl, decodeCommandWith_of_encode hw hwf⟩
  | control u => simp [IsCommand, hw] at hi

/-- Every word of a list is a legal command word. -/
def AllLegal (ws : List InstrWord) : Prop := ∀ w ∈ ws, IsLegalWord w

theorem allLegal_wordsOf {is : List Instr} (his : ∀ i ∈ is, IsCommand i = true) : AllLegal (wordsOf is) := by
  intro w hw
  obtain ⟨i, hi, rfl⟩ := List.mem_map.mp hw
  exact isLegalWord_encode (his i hi)

theorem allLegal_singleton {i : Instr} (hi : IsCommand i = true) : AllLegal (wordsOf [i]) :=
  allLegal_wordsOf (List.forall_mem_singleton.mpr hi)

theorem allLegal_map {α : Type} {f : α → Instr} (hf : ∀ a, IsCommand (f a) = true) (l : List α) :
    AllLegal (wordsOf (l.map f)) :=
  allLegal_wordsOf (List.forall_mem_map.mpr fun a _ => hf a)

theorem allLegal_hashInstrs (bs : List Byte) : AllLegal (wordsOf (hashInstrs bs)) := by
  refine allLegal_wordsOf fun i hi => ?_
  simp only [hashInstrs, msgInstrs, List.cons_append, List.mem_cons, List.mem_append, List.mem_map,
    List.not_mem_nil, or_false] at hi
  obtain rfl | ⟨b, -, rfl⟩ | rfl := hi <;> rfl

/-- A line that is refused or has given words. -/
theorem allLegal_of_ite {p : Prop} [Decidable p] {ws ws' : List InstrWord} (hws : AllLegal ws)
    (h : (if p then some ws else none) = some ws') : AllLegal ws' := by
  obtain ⟨-, hsome⟩ := Option.ite_none_right_eq_some.mp h
  exact Option.some.inj hsome ▸ hws

/-- A line that is refused or has words by its operand. -/
theorem allLegal_of_option_map {α : Type} {f : α → List InstrWord} (hf : ∀ a, AllLegal (f a))
    {operand : Option α} {ws : List InstrWord} (h : operand.map f = some ws) : AllLegal ws := by
  obtain ⟨a, -, rfl⟩ := Option.map_eq_some_iff.mp h
  exact hf a

/-- A line of tokens gives legal words, mnemonic by mnemonic, but for `.word`. -/
theorem allLegal_assembleTokens {tokens : List (List Char)} {ws : List InstrWord}
    (h : assembleTokens tokens = some ws) : tokens.head? = some ".word".toList ∨ AllLegal ws := by
  cases tokens with
  | nil => cases h; exact .inr (List.forall_mem_nil _)
  | cons op args =>
    unfold assembleTokens at h
    obtain ⟨-, h⟩ | ⟨-, h⟩ := ite_eq_iff.mp h
    · exact .inr (allLegal_of_ite (allLegal_singleton rfl) h)
    obtain ⟨-, h⟩ | ⟨-, h⟩ := ite_eq_iff.mp h
    · exact .inr (allLegal_of_ite (allLegal_singleton rfl) h)
    obtain ⟨-, h⟩ | ⟨-, h⟩ := ite_eq_iff.mp h
    · exact .inr (allLegal_of_ite (allLegal_singleton rfl) h)
    obtain ⟨-, h⟩ | ⟨-, h⟩ := ite_eq_iff.mp h
    · exact .inr (allLegal_of_ite (allLegal_map (fun _ => rfl) _) h)
    obtain ⟨-, h⟩ | ⟨-, h⟩ := ite_eq_iff.mp h
    · exact .inr (allLegal_of_ite (allLegal_map (fun _ => rfl) _) h)
    obtain ⟨-, h⟩ | ⟨-, h⟩ := ite_eq_iff.mp h
    · obtain ⟨-, h⟩ := Option.ite_none_left_eq_some.mp h
      exact .inr (allLegal_of_option_map (fun bs => allLegal_map (fun _ => rfl) bs) h)
    split at h
    · obtain ⟨-, h⟩ | ⟨-, h⟩ := ite_eq_iff.mp h
      · exact .inr (allLegal_of_option_map (fun _ => allLegal_singleton rfl) h)
      obtain ⟨-, h⟩ | ⟨-, h⟩ := ite_eq_iff.mp h
      · exact .inr (allLegal_of_option_map (fun _ => allLegal_singleton rfl) h)
      obtain ⟨-, h⟩ | ⟨-, h⟩ := ite_eq_iff.mp h
      · exact .inr (allLegal_of_option_map (fun _ => allLegal_singleton rfl) h)
      obtain ⟨hop, -⟩ := Option.ite_none_right_eq_some.mp h
      exact .inl (congrArg some hop)
    · cases h

/-- Settles O59: MSG and HASH give commands, any other line what its tokens give. -/
theorem assemblerProducesLegalWords : Obligations.AssemblerProducesLegalWords := by
  intro line ws h
  unfold assembleLine at h
  split at h
  · split at h
    · exact .inr (allLegal_of_option_map (fun bs => allLegal_map (fun _ => rfl) bs) h)
    · cases h
  · split at h
    · exact .inr (allLegal_of_option_map allLegal_hashInstrs h)
    · cases h
  · exact allLegal_assembleTokens h

/-! ### HASH (spec/30_encoding.md R81) -/

/-- The printable characters a quoted text may hold (R81). -/
def Quotable (x : Char) : Prop := 0x20 ≤ x.toNat ∧ x.toNat ≤ 0x7E ∧ x.toNat ≠ 0x22

/-- A quoted text ends at its closing quote, and its bytes are the codes of its characters. -/
theorem quotedFrom_append_quote {text : List Char} (htext : ∀ x ∈ text, Quotable x) (rest : List Char) :
    quotedFrom (text ++ '"' :: rest) = some (text.map fun x => BitVec.ofNat 8 x.toNat, rest) := by
  induction text with
  | nil => rfl
  | cons x text ih =>
    obtain ⟨⟨hlow, hhigh, hquote⟩, hrest⟩ := List.forall_mem_cons.mp htext
    rw [List.cons_append, quotedFrom, if_neg hquote, if_pos ⟨hlow, hhigh⟩, ih hrest]
    rfl

theorem quotedText_of_quoted {text : List Char} (htext : ∀ x ∈ text, Quotable x) :
    quotedText ('"' :: text ++ ['"']) = some (text.map fun x => BitVec.ofNat 8 x.toNat) := by
  have hfrom := quotedFrom_append_quote htext []
  have hskip : skipBlanks ('"' :: text ++ ['"']) = '"' :: (text ++ ['"']) := rfl
  rw [quotedText, hskip]
  simp only [hfrom]
  rfl

/-- The words of HASH's expansion are those of a call on its bytes. -/
theorem wordsOf_hashInstrs (bs : List Byte) : wordsOf (hashInstrs bs) = (callWords bs).map .command := by
  simp only [wordsOf, hashInstrs, msgInstrs, callWords, List.cons_append, List.map_cons, List.map_append, List.map_map]
  rfl

/-- Settles O60: the line is HASH, a blank and the quoted text. -/
theorem assemblerExpandsHash : Obligations.AssemblerExpandsHash := by
  intro text htext
  have hline : assembleLine ("HASH \"".toList ++ text ++ "\"".toList) =
      (quotedText ('"' :: text ++ ['"'])).map fun bs => wordsOf (hashInstrs bs) := rfl
  rw [hline, quotedText_of_quoted htext, Option.map_some, wordsOf_hashInstrs]

end Sys2Proof.Proofs
end
